-- ==== Sys2Proof/Word.lean ====
section
/-! DEFINITION. The word types of the machine: the byte that memory and the accumulator hold, the 16-bit word of
X, Y, SP and `.w` pointers, and the 24-bit extended address of PC and `.e` pointers. -/

namespace Sys2Proof

/-- Eight bits: the addressable unit and the width of A (R5, R10, R25). -/
abbrev Byte := BitVec 8

/-- Sixteen bits: X, Y, SP, a 16-bit operand `MS LS`, a `.w` pointer (R11, R12, R46). -/
abbrev Word := BitVec 16

/-- Twenty-four bits: PC, a memory address, an operand `ExtB MS LS`, a `.e` pointer (R13, R25, R46). -/
abbrev ExtAddr := BitVec 24

/-- The highest address of the 24-bit space (R25). -/
abbrev topAddress : Nat := 0xFFFFFF

end Sys2Proof
end

