-- ==== Sys2Proof/Config.lean ====
section
/-! DEFINITION. The parameters the spec leaves OPEN or offers as configuration fields (R4), as plain data that State
carries: the memory map `MAP`, the code region `CODE`, the stop addresses `STOP`, the byte order of a pointer in
memory, and the two optional cautious readings. No step changes them. No file of this model picks a value for them
except State.reset (assumption log 3, 4, 5, 7, 8, 9). What they mean is in Machine/Ops.lean. -/

namespace Sys2Proof

/-- What `MAP` says of one address (R34). -/
inductive MemKind where
  | ram     -- readable and writable
  | rom     -- readable only
  | absent  -- neither
  deriving DecidableEq, Repr

/-- The addresses `first`, `first + 1`, .., `last`. -/
structure AddrRange where
  first : Nat
  last  : Nat
  deriving DecidableEq, Repr

/-- One entry of the memory map: every address of `range` is of kind `kind`. -/
structure Region where
  range : AddrRange
  kind  : MemKind
  deriving DecidableEq, Repr

/-- Which byte of a pointer held in memory lies at the lowest address (R29, D4). -/
inductive ByteOrder where
  | msFirst  -- the spec's default
  | lsFirst
  deriving DecidableEq, Repr

/-- What an indexed effective address of 0x010000 or more does (R56, D5). -/
inductive EaPolicy where
  | carry   -- the spec's default: the sum carries into bit 16
  | refuse  -- the cautious reading: refuse(EaCarry)
  deriving DecidableEq, Repr

/-- What `SUB SP,#byte` does when SP is smaller than the byte (R87, D19). -/
inductive SpPolicy where
  | wrap    -- the spec's default: modulo 2^16
  | refuse  -- the cautious reading: refuse(SpWrap)
  deriving DecidableEq, Repr

/-- The machine's parameters. `map` is read front to back, the first entry that holds an address decides, and an
address in no entry is absent; `code` is the union of its ranges; `stop` is a set of addresses (R4). -/
structure Config where
  map          : List Region
  code         : List AddrRange
  stop         : List ExtAddr
  pointerOrder : ByteOrder
  eaPolicy     : EaPolicy
  spPolicy     : SpPolicy
  deriving DecidableEq, Repr

end Sys2Proof
end

