-- ==== Sys2Proof/Machine/State.lean ====
section
/-! DEFINITION. The state of the machine (R10 to R16, R25), the parameters it runs under (R4), the reasons a step
stops (R90, R101), and the state after reset. Plain data only. -/

namespace Sys2Proof.Machine

/-- The seven condition flags, seven separate bits in the source's column order, which is no bit order (R16). -/
structure Flags where
  v  : Bool  -- overflow (R17)
  i1 : Bool  -- named, never read or written (R22)
  h  : Bool  -- half carry (R18)
  i0 : Bool  -- named, never read or written (R22)
  n  : Bool  -- negative (R19)
  z  : Bool  -- zero (R20)
  c  : Bool  -- carry or borrow (R21)
  deriving DecidableEq, Repr

/-- Memory: the bytes that differ from `Memory.blank`, each with its address, addresses strictly rising (R25). -/
abbrev Memory := List Host.Cell

/-- What an address that is not listed reads as. The spec leaves every launch byte unspecified (R24); DESIGN CHOICE,
assumption log 2, unsafe. -/
def Memory.blank : Byte := 0

/-- The cells lie in order at `low` or above, within the address space, and none is blank. -/
def Memory.wfFrom : Nat → Memory → Bool
  | _, [] => true
  | low, (a, v) :: rest => low ≤ a && a ≤ topAddress && v != Memory.blank && Memory.wfFrom (a + 1) rest

/-- The canonical form: equal memories are equal lists. -/
def Memory.wf (m : Memory) : Bool := Memory.wfFrom 0 m

/-- All the state the spec gives the machine, and the parameters `cfg`, which no step changes (R4, section 10_state). -/
structure State where
  a     : Byte     -- the accumulator (R10)
  x     : Word     -- index register X (R11)
  y     : Word     -- index register Y (R11)
  sp    : Word     -- SP, SPW = 16 (R12)
  pc    : ExtAddr  -- the program counter (R13)
  flags : Flags    -- V, I1, H, I0, N, Z, C (R16)
  mem   : Memory   -- the bytes at 0x000000 to 0xFFFFFF (R25)
  cfg   : Config   -- MAP, CODE, STOP and the optional readings (R4)
  deriving DecidableEq, Repr

/-- The machine stops. The spec has no hardware fault (R89), so this type holds the end of a run and nothing else. -/
inductive Fault where
  /-- PC is one of the addresses `STOP`: the state is final and no instruction is fetched (R101). Raised by `step`
  alone. Safe: the hardware goes on, and nothing can be proved of what it does then. -/
  | final
  deriving DecidableEq, Repr

/-- A step without a meaning: the closed list of R90, each safe (errs toward unprovable), and the host's constructor
for an instruction without a meaning, which no arm of `exec` uses. -/
inductive Refusal where
  /-- An instruction that has no meaning yet. Raised by nothing in this model. Safe. -/
  | notModelled (mnemonic : String)
  /-- A byte of the instruction lies outside `CODE` (R31). Raised by `step`. Safe. -/
  | fetchOutsideCode
  /-- `pc0 + len > 0xFFFFFF` (R15). Raised by `step` and by every meaning. Safe. -/
  | pcWrap
  /-- The (precode, opcode) pair is in none of the 63 rows (R49). Raised by `step`. Safe. -/
  | notInTable
  /-- A pointer byte or the data byte lies where `MAP` admits no read (R32). Raised by ADD, LD, SUB A, CLR mem through
  a pointer, and JPF [longptr.e]. Safe. -/
  | readNotAdmitted
  /-- CLR mem targets an address `MAP` does not admit for writing (R33). Safe. -/
  | writeNotAdmitted
  /-- CLR mem targets an address in `CODE` (R33, R38). Safe. -/
  | writeToCode
  /-- Only under `EaPolicy.refuse`: an effective address of 0x010000 or more (R56). Safe. -/
  | eaCarry
  /-- Only under `SpPolicy.refuse`: `SUB SP,#byte` with SP below the byte (R87). Safe. -/
  | spWrap
  deriving DecidableEq, Repr

/-- The parameters of the state after reset: every address plain RAM, no program loaded, no stop address, and the
spec's default for each optional reading. MAP, CODE and STOP are OPEN in the spec (R4); DESIGN CHOICE, assumption
log 3, 4 and 5. -/
def resetConfig : Config where
  map := [⟨⟨0, topAddress⟩, .ram⟩]
  code := []
  stop := []
  pointerOrder := .msFirst
  eaPolicy := .carry
  spPolicy := .wrap

/-- The machine after reset. The spec gives no reset value for anything (R24): the register and flag values are those
its GK6 recalls of the family (PRESUMED), SP is where its programs start it (DESIGN CHOICE); log 1, unsafe. -/
def State.reset : State where
  a := 0
  x := 0
  y := 0
  sp := 0x03FF
  pc := 0x008000
  flags := ⟨false, true, false, true, false, false, false⟩
  mem := []
  cfg := resetConfig

end Sys2Proof.Machine
end

