-- ==== Sys2Proof/Machine/Flags.lean ====
section
/-! DEFINITION. The flag computations, as the Boolean formulas of the spec: R74 for ADD, R77 for LD, R81 for CLR, R86
for SUB A. Each function gives all seven flags, those the instruction does not affect as they were (R9). -/

namespace Sys2Proof.Machine

/-- `Ai.Mi + Mi./Ri + /Ri.Ai`: the carry out of bit `i` of the addition (R74). -/
def carryOut (i : Nat) (a m r : Byte) : Bool :=
  (a.getLsbD i && m.getLsbD i) || (m.getLsbD i && !r.getLsbD i) || (!r.getLsbD i && a.getLsbD i)

/-- `/Ai.Mi + /Ai.Ri + Ai.Mi.Ri`: the borrow out of bit `i` of the subtraction (R86). -/
def borrowOut (i : Nat) (a m r : Byte) : Bool :=
  (!a.getLsbD i && m.getLsbD i) || (!a.getLsbD i && r.getLsbD i) || (a.getLsbD i && m.getLsbD i && r.getLsbD i)

/-- The N flag of a result byte: its bit 7 (R19). -/
def negative (r : Byte) : Bool := r.getLsbD 7

/-- The Z flag of a result byte: all eight bits are 0 (R20). -/
def isZero (r : Byte) : Bool := r == 0

/-- The flags after ADD of `m` to `a` (R74): V, H, N, Z, C are written. -/
def Flags.afterAdd (f : Flags) (a m : Byte) : Flags :=
  let r := a + m
  { f with
    v := carryOut 7 a m r ^^ carryOut 6 a m r
    h := carryOut 3 a m r
    n := negative r
    z := isZero r
    c := carryOut 7 a m r }

/-- The flags after SUB of `m` from `a` (R86): V, N, Z, C are written. The V formula is the restored one (C5). -/
def Flags.afterSub (f : Flags) (a m : Byte) : Flags :=
  let r := a - m
  { f with
    v := borrowOut 7 a m r ^^ borrowOut 6 a m r
    n := negative r
    z := isZero r
    c := borrowOut 7 a m r }

/-- The flags after a load of `m` (R77): N and Z are written. -/
def Flags.afterLoad (f : Flags) (m : Byte) : Flags := { f with n := negative m, z := isZero m }

/-- The flags after CLR (R79, R80, R81): N cleared, Z set. -/
def Flags.afterClear (f : Flags) : Flags := { f with n := false, z := true }

end Sys2Proof.Machine
end

