-- ==== Sys2Proof/Syntax.lean ====
section
/-! DEFINITION. The 63 instructions of the opcode table (R2, R47), one constructor per row, in the table's order, and
the seven byte layouts (R41). A constructor's name is its mnemonic and its operand form; its argument is the value its
operand bytes form (R46): `imm` an immediate byte, `addr` a short or long address, `off` a short or long offset,
`ptr` the address of a pointer, `target` an extended address. Registers are implied by the constructor (R45). -/

namespace Sys2Proof

/-- The seven byte layouts of R41. -/
inductive Format where
  | op | opB | opW | opE | preOp | preOpB | preOpW
  deriving DecidableEq, Repr

/-- The length in bytes of each layout (R40, R41). -/
def Format.length : Format → Nat
  | .op => 1
  | .opB => 2
  | .opW => 3
  | .opE => 4
  | .preOp => 2
  | .preOpB => 3
  | .preOpW => 4

/-- The instructions in scope: exactly the 63 encodings of R47. -/
inductive Instr where
  | addByte (imm : Byte)            -- AB XX          ADD A,#byte
  | addShortmem (addr : Byte)       -- BB XX          ADD A,shortmem
  | addLongmem (addr : Word)        -- CB MS LS       ADD A,longmem
  | addAtX                          -- FB             ADD A,(X)
  | addShortoffX (off : Byte)       -- EB XX          ADD A,(shortoff,X)
  | addLongoffX (off : Word)        -- DB MS LS       ADD A,(longoff,X)
  | addAtY                          -- 90 FB          ADD A,(Y)
  | addShortoffY (off : Byte)       -- 90 EB XX       ADD A,(shortoff,Y)
  | addLongoffY (off : Word)        -- 90 DB MS LS    ADD A,(longoff,Y)
  | addShortoffSP (off : Byte)      -- 1B XX          ADD A,(shortoff,SP)
  | addShortptr (ptr : Byte)        -- 92 CB XX       ADD A,[shortptr.w]
  | addLongptr (ptr : Word)         -- 72 CB MS LS    ADD A,[longptr.w]
  | addShortptrX (ptr : Byte)       -- 92 DB XX       ADD A,([shortptr.w],X)
  | addLongptrX (ptr : Word)        -- 72 DB MS LS    ADD A,([longptr.w],X)
  | addShortptrY (ptr : Byte)       -- 91 DB XX       ADD A,([shortptr.w],Y)
  | ldByte (imm : Byte)             -- A6 XX          LD A,#byte
  | ldShortmem (addr : Byte)        -- B6 XX          LD A,shortmem
  | ldLongmem (addr : Word)         -- C6 MS LS       LD A,longmem
  | ldAtX                           -- F6             LD A,(X)
  | ldShortoffX (off : Byte)        -- E6 XX          LD A,(shortoff,X)
  | ldLongoffX (off : Word)         -- D6 MS LS       LD A,(longoff,X)
  | ldAtY                           -- 90 F6          LD A,(Y)
  | ldShortoffY (off : Byte)        -- 90 E6 XX       LD A,(shortoff,Y)
  | ldLongoffY (off : Word)         -- 90 D6 MS LS    LD A,(longoff,Y)
  | ldShortoffSP (off : Byte)       -- 7B XX          LD A,(shortoff,SP)
  | ldShortptr (ptr : Byte)         -- 92 C6 XX       LD A,[shortptr.w]
  | ldLongptr (ptr : Word)          -- 72 C6 MS LS    LD A,[longptr.w]
  | ldShortptrX (ptr : Byte)        -- 92 D6 XX       LD A,([shortptr.w],X)
  | ldLongptrX (ptr : Word)         -- 72 D6 MS LS    LD A,([longptr.w],X)
  | ldShortptrY (ptr : Byte)        -- 91 D6 XX       LD A,([shortptr.w],Y)
  | clrA                            -- 4F             CLR A
  | clrShortmem (addr : Byte)       -- 3F XX          CLR shortmem
  | clrLongmem (addr : Word)        -- 72 5F MS LS    CLR longmem
  | clrAtX                          -- 7F             CLR (X)
  | clrShortoffX (off : Byte)       -- 6F XX          CLR (shortoff,X)
  | clrLongoffX (off : Word)        -- 72 4F MS LS    CLR (longoff,X)
  | clrAtY                          -- 90 7F          CLR (Y)
  | clrShortoffY (off : Byte)       -- 90 6F XX       CLR (shortoff,Y)
  | clrLongoffY (off : Word)        -- 90 4F MS LS    CLR (longoff,Y)
  | clrShortoffSP (off : Byte)      -- 0F XX          CLR (shortoff,SP)
  | clrShortptr (ptr : Byte)        -- 92 3F XX       CLR [shortptr.w]
  | clrLongptr (ptr : Word)         -- 72 3F MS LS    CLR [longptr.w]
  | clrShortptrX (ptr : Byte)       -- 92 6F XX       CLR ([shortptr.w],X)
  | clrLongptrX (ptr : Word)        -- 72 6F MS LS    CLR ([longptr.w],X)
  | clrShortptrY (ptr : Byte)       -- 91 6F XX       CLR ([shortptr.w],Y)
  | jpfExtmem (target : ExtAddr)    -- AC ExtB MS LS  JPF extmem
  | jpfLongptr (ptr : Word)         -- 92 AC MS LS    JPF [longptr.e]
  | subByte (imm : Byte)            -- A0 XX          SUB A,#byte
  | subShortmem (addr : Byte)       -- B0 XX          SUB A,shortmem
  | subLongmem (addr : Word)        -- C0 MS LS       SUB A,longmem
  | subAtX                          -- F0             SUB A,(X)
  | subShortoffX (off : Byte)       -- E0 XX          SUB A,(shortoff,X)
  | subLongoffX (off : Word)        -- D0 MS LS       SUB A,(longoff,X)
  | subAtY                          -- 90 F0          SUB A,(Y)
  | subShortoffY (off : Byte)       -- 90 E0 XX       SUB A,(shortoff,Y)
  | subLongoffY (off : Word)        -- 90 D0 MS LS    SUB A,(longoff,Y)
  | subShortoffSP (off : Byte)      -- 10 XX          SUB A,(shortoff,SP)
  | subShortptr (ptr : Byte)        -- 92 C0 XX       SUB A,[shortptr.w]
  | subLongptr (ptr : Word)         -- 72 C0 MS LS    SUB A,[longptr.w]
  | subShortptrX (ptr : Byte)       -- 92 D0 XX       SUB A,([shortptr.w],X)
  | subLongptrX (ptr : Word)        -- 72 D0 MS LS    SUB A,([longptr.w],X)
  | subShortptrY (ptr : Byte)       -- 91 D0 XX       SUB A,([shortptr.w],Y)
  | subSPByte (imm : Byte)          -- 52 XX          SUB SP,#byte
  deriving DecidableEq, Repr

/-- The layout of each instruction's encoding (R41, R47). -/
def Instr.format : Instr → Format
  | .addAtX | .ldAtX | .clrA | .clrAtX | .subAtX => .op
  | .addByte _ | .addShortmem _ | .addShortoffX _ | .addShortoffSP _ | .ldByte _ | .ldShortmem _
  | .ldShortoffX _ | .ldShortoffSP _ | .clrShortmem _ | .clrShortoffX _ | .clrShortoffSP _ | .subByte _
  | .subShortmem _ | .subShortoffX _ | .subShortoffSP _ | .subSPByte _ => .opB
  | .addLongmem _ | .addLongoffX _ | .ldLongmem _ | .ldLongoffX _ | .subLongmem _ | .subLongoffX _ => .opW
  | .jpfExtmem _ => .opE
  | .addAtY | .ldAtY | .clrAtY | .subAtY => .preOp
  | .addShortoffY _ | .addShortptr _ | .addShortptrX _ | .addShortptrY _ | .ldShortoffY _ | .ldShortptr _
  | .ldShortptrX _ | .ldShortptrY _ | .clrShortoffY _ | .clrShortptr _ | .clrShortptrX _ | .clrShortptrY _
  | .subShortoffY _ | .subShortptr _ | .subShortptrX _ | .subShortptrY _ => .preOpB
  | .addLongoffY _ | .addLongptr _ | .addLongptrX _ | .ldLongoffY _ | .ldLongptr _ | .ldLongptrX _
  | .clrLongmem _ | .clrLongoffX _ | .clrLongoffY _ | .clrLongptr _ | .clrLongptrX _ | .jpfLongptr _
  | .subLongoffY _ | .subLongptr _ | .subLongptrX _ => .preOpW

/-- The instruction's length in bytes, the `lgth` cell of its row (R40). -/
def Instr.length (i : Instr) : Nat := i.format.length

end Sys2Proof
end

