-- ==== Sys2Proof/Machine/Ops.lean ====
section
/-! DEFINITION. The named operations the meanings are made of: what the parameters say of an address, reading and
writing a byte, pointers in memory, the checks an instruction must pass with the refusal each names, and the updates
of registers. The spec has no exception, trap or return from one (R89, R93), so there is no operation that takes one. -/

namespace Sys2Proof.Machine

/-! ### What the parameters say of an address -/

def AddrRange.contains (r : AddrRange) (addr : Nat) : Bool := r.first ≤ addr && addr ≤ r.last

/-- The kind of the first entry that holds the address; absent if none does (R34, assumption log 3). -/
def mapKind : List Region → Nat → MemKind
  | [], _ => .absent
  | g :: rest, addr => if AddrRange.contains g.range addr then g.kind else mapKind rest addr

/-- What `MAP` says of an address; an address beyond the 24-bit space does not exist (R25, R34). -/
def kindAt (c : Config) (addr : Nat) : MemKind := if addr ≤ topAddress then mapKind c.map addr else .absent

/-- `MAP` admits a read of the address (R34). -/
def readable (c : Config) (addr : Nat) : Bool := kindAt c addr != .absent

/-- `MAP` admits a write of the address (R34). -/
def writable (c : Config) (addr : Nat) : Bool := kindAt c addr == .ram

/-- The address is in `CODE` (R38). -/
def inCode (c : Config) (addr : Nat) : Bool := c.code.any (fun r => AddrRange.contains r addr)

/-- The address is in `STOP` (R101). -/
def isStop (c : Config) (addr : ExtAddr) : Bool := c.stop.contains addr

/-! ### Memory -/

/-- The byte at an address: the one last written there, or the launch byte (R34, R37). -/
def Memory.read : Memory → Nat → Byte
  | [], _ => Memory.blank
  | (b, v) :: rest, addr => if b = addr then v else Memory.read rest addr

/-- Memory with nothing listed at an address. -/
def Memory.erase (m : Memory) (addr : Nat) : Memory := m.filter (fun cell => cell.1 != addr)

/-- Memory with a cell put in its place in the order. -/
def Memory.insert : Memory → Nat → Byte → Memory
  | [], addr, v => [(addr, v)]
  | (b, w) :: rest, addr, v =>
    if addr < b then (addr, v) :: (b, w) :: rest else (b, w) :: Memory.insert rest addr v

/-- `mem[addr] <- v` (R33). An address beyond the 24-bit space does not exist and holds nothing (R25). -/
def Memory.write (m : Memory) (addr : Nat) (v : Byte) : Memory :=
  if addr ≤ topAddress then
    if v = Memory.blank then m.erase addr else Memory.insert (m.erase addr) addr v
  else m

/-- `n` bytes at ascending addresses (R39). -/
def Memory.readBytes (m : Memory) (addr : Nat) : Nat → List Byte
  | 0 => []
  | n + 1 => m.read addr :: Memory.readBytes m (addr + 1) n

/-- The bytes stored at ascending addresses. -/
def Memory.writeBytes (m : Memory) (addr : Nat) : List Byte → Memory
  | [] => m
  | v :: rest => Memory.writeBytes (m.write addr v) (addr + 1) rest

/-- The 2-byte pointer at `p` and `p + 1`, computed without wrap (R29, R32; byte order D4, assumption log 7). -/
def pointerWord (s : State) (p : Nat) : Word :=
  match s.cfg.pointerOrder with
  | .msFirst => s.mem.read p ++ s.mem.read (p + 1)
  | .lsFirst => s.mem.read (p + 1) ++ s.mem.read p

/-- The 3-byte pointer at `p`, `p + 1` and `p + 2`, computed without wrap (R29, R32, R83; byte order D4). -/
def pointerExt (s : State) (p : Nat) : ExtAddr :=
  match s.cfg.pointerOrder with
  | .msFirst => s.mem.read p ++ s.mem.read (p + 1) ++ s.mem.read (p + 2)
  | .lsFirst => s.mem.read (p + 2) ++ s.mem.read (p + 1) ++ s.mem.read p

/-! ### Checks and outcomes -/

/-- A condition a step must meet and the refusal it answers where the condition fails (R92). -/
structure Check where
  ok      : Bool
  refusal : Refusal
  deriving DecidableEq, Repr

/-- The refusal of the first check that fails (R92). -/
def firstRefusal : List Check → Option Refusal
  | [] => none
  | c :: rest => if c.ok then firstRefusal rest else some c.refusal

/-- An instruction either passes every check and makes all its writes, or makes none (R39, R90, R93). -/
def answer (checks : List Check) (t : State) : Host.Outcome State Fault Refusal :=
  match firstRefusal checks with
  | none => .next t
  | some r => .refused r

/-- The instruction's bytes and the address after them fit the 24-bit space (R15). -/
def roomCheck (s : State) (len : Nat) : Check := ⟨s.pc.toNat + len ≤ topAddress, .pcWrap⟩

/-- A byte of the instruction may be fetched at the address (R31). -/
def fetchCheck (s : State) (addr : Nat) : Check := ⟨inCode s.cfg addr, .fetchOutsideCode⟩

/-- A data or pointer byte may be read at the address (R32). -/
def readCheck (s : State) (addr : Nat) : Check := ⟨readable s.cfg addr, .readNotAdmitted⟩

/-- A byte may be written at the address: first not in `CODE`, then admitted by the map (R33, R92). -/
def writeChecks (s : State) (addr : Nat) : List Check :=
  [⟨!inCode s.cfg addr, .writeToCode⟩, ⟨writable s.cfg addr, .writeNotAdmitted⟩]

/-! ### Updates -/

def State.withA (s : State) (v : Byte) : State := { s with a := v }

def State.withSP (s : State) (v : Word) : State := { s with sp := v }

def State.withPC (s : State) (v : ExtAddr) : State := { s with pc := v }

def State.withFlags (s : State) (f : Flags) : State := { s with flags := f }

/-- `MemWrite(addr, 1, v)`, its checks passed (R33). -/
def State.withByte (s : State) (addr : Nat) (v : Byte) : State := { s with mem := s.mem.write addr v }

/-- `PC <- pc0 + len` (R14). -/
def State.advance (s : State) (len : Nat) : State := s.withPC (s.pc + BitVec.ofNat 24 len)

end Sys2Proof.Machine
end

