-- ==== Sys2Proof/Machine/Operands.lean ====
section
/-! DEFINITION. The fifteen operand forms (R55): the fourteen that name a memory byte, and the immediate byte. The
effective address of a form is a function of the state alone; what must hold for an instruction to use it is a list of
checks, in the order of R92. -/

namespace Sys2Proof.Machine

/-- The fourteen forms that name a memory byte, in the order of R55 (forms 2 to 15). -/
inductive MemForm where
  | shortmem (addr : Byte)
  | longmem (addr : Word)
  | atX
  | shortoffX (off : Byte)
  | longoffX (off : Word)
  | atY
  | shortoffY (off : Byte)
  | longoffY (off : Word)
  | shortoffSP (off : Byte)
  | shortptr (ptr : Byte)
  | longptr (ptr : Word)
  | shortptrX (ptr : Byte)
  | longptrX (ptr : Word)
  | shortptrY (ptr : Byte)
  deriving DecidableEq, Repr

/-- A source byte of ADD, LD or SUB: the immediate form `#byte` (R57), or a memory byte. -/
inductive Source where
  | imm (m : Byte)
  | mem (f : MemForm)
  deriving DecidableEq, Repr

/-- Where the form's pointer lies, for the five forms that have one (R67 to R71). -/
def pointerAddress : MemForm → Option Nat
  | .shortmem _ | .longmem _ | .atX | .shortoffX _ | .longoffX _ | .atY | .shortoffY _ | .longoffY _
  | .shortoffSP _ => none
  | .shortptr p => some p.toNat
  | .longptr p => some p.toNat
  | .shortptrX p => some p.toNat
  | .longptrX p => some p.toNat
  | .shortptrY p => some p.toNat

/-- The effective address: every part an unsigned number, added in the naturals and never truncated (R56), form by
form R58 to R71. -/
def effectiveAddress (s : State) : MemForm → Nat
  | .shortmem addr => addr.toNat
  | .longmem addr => addr.toNat
  | .atX => s.x.toNat
  | .shortoffX off => s.x.toNat + off.toNat
  | .longoffX off => s.x.toNat + off.toNat
  | .atY => s.y.toNat
  | .shortoffY off => s.y.toNat + off.toNat
  | .longoffY off => s.y.toNat + off.toNat
  | .shortoffSP off => s.sp.toNat + off.toNat
  | .shortptr p => (pointerWord s p.toNat).toNat
  | .longptr p => (pointerWord s p.toNat).toNat
  | .shortptrX p => (pointerWord s p.toNat).toNat + s.x.toNat
  | .longptrX p => (pointerWord s p.toNat).toNat + s.x.toNat
  | .shortptrY p => (pointerWord s p.toNat).toNat + s.y.toNat

/-- The pointer bytes are readable, in ascending order (R32, R92 item 6). -/
def pointerChecks (s : State) (f : MemForm) : List Check :=
  match pointerAddress f with
  | none => []
  | some p => [readCheck s p, readCheck s (p + 1)]

/-- Under the cautious reading an effective address stays below 0x010000 (R56, R92 item 7). -/
def carryCheck (s : State) (f : MemForm) : Check :=
  ⟨s.cfg.eaPolicy == .carry || effectiveAddress s f < 0x10000, .eaCarry⟩

/-- What must hold for the form to give an address (R92 items 6 and 7). -/
def addressChecks (s : State) (f : MemForm) : List Check := pointerChecks s f ++ [carryCheck s f]

/-- What must hold for the source to give a byte (R92 items 6 to 8). -/
def sourceChecks (s : State) : Source → List Check
  | .imm _ => []
  | .mem f => addressChecks s f ++ [readCheck s (effectiveAddress s f)]

/-- What must hold for the form to take a byte (R92 items 6 to 8). -/
def destChecks (s : State) (f : MemForm) : List Check := addressChecks s f ++ writeChecks s (effectiveAddress s f)

/-- The operand byte `M` (R55, R57). -/
def sourceByte (s : State) : Source → Byte
  | .imm m => m
  | .mem f => s.mem.read (effectiveAddress s f)

end Sys2Proof.Machine
end

