-- ==== Sys2Proof/Machine/Add.lean ====
section
/-! DEFINITION. ADD A,src (R73, R74, R75): one meaning over the fifteen operand forms, and a definition for each row. -/

namespace Sys2Proof.Machine

/-- `A <- A + M` modulo 256, V, H, N, Z, C by R74, `PC <- pc0 + len` (R73). -/
def addSource (fmt : Format) (src : Source) (s : State) : Host.Outcome State Fault Refusal :=
  let m := sourceByte s src
  answer (roomCheck s fmt.length :: sourceChecks s src)
    (((s.withA (s.a + m)).withFlags (s.flags.afterAdd s.a m)).advance fmt.length)

/-- ADD A,#byte: AB XX (R73, R57). -/
def execAddByte (imm : Byte) (s : State) : Host.Outcome State Fault Refusal :=
  addSource .opB (.imm imm) s

/-- ADD A,shortmem: BB XX (R73, R58). -/
def execAddShortmem (addr : Byte) (s : State) : Host.Outcome State Fault Refusal :=
  addSource .opB (.mem (.shortmem addr)) s

/-- ADD A,longmem: CB MS LS (R73, R59). -/
def execAddLongmem (addr : Word) (s : State) : Host.Outcome State Fault Refusal :=
  addSource .opW (.mem (.longmem addr)) s

/-- ADD A,(X): FB (R73, R60). -/
def execAddAtX (s : State) : Host.Outcome State Fault Refusal :=
  addSource .op (.mem .atX) s

/-- ADD A,(shortoff,X): EB XX (R73, R61). -/
def execAddShortoffX (off : Byte) (s : State) : Host.Outcome State Fault Refusal :=
  addSource .opB (.mem (.shortoffX off)) s

/-- ADD A,(longoff,X): DB MS LS (R73, R62). -/
def execAddLongoffX (off : Word) (s : State) : Host.Outcome State Fault Refusal :=
  addSource .opW (.mem (.longoffX off)) s

/-- ADD A,(Y): 90 FB (R73, R63). -/
def execAddAtY (s : State) : Host.Outcome State Fault Refusal :=
  addSource .preOp (.mem .atY) s

/-- ADD A,(shortoff,Y): 90 EB XX (R73, R64). -/
def execAddShortoffY (off : Byte) (s : State) : Host.Outcome State Fault Refusal :=
  addSource .preOpB (.mem (.shortoffY off)) s

/-- ADD A,(longoff,Y): 90 DB MS LS (R73, R65). -/
def execAddLongoffY (off : Word) (s : State) : Host.Outcome State Fault Refusal :=
  addSource .preOpW (.mem (.longoffY off)) s

/-- ADD A,(shortoff,SP): 1B XX (R73, R66). -/
def execAddShortoffSP (off : Byte) (s : State) : Host.Outcome State Fault Refusal :=
  addSource .opB (.mem (.shortoffSP off)) s

/-- ADD A,[shortptr.w]: 92 CB XX (R73, R67). -/
def execAddShortptr (ptr : Byte) (s : State) : Host.Outcome State Fault Refusal :=
  addSource .preOpB (.mem (.shortptr ptr)) s

/-- ADD A,[longptr.w]: 72 CB MS LS (R73, R68). -/
def execAddLongptr (ptr : Word) (s : State) : Host.Outcome State Fault Refusal :=
  addSource .preOpW (.mem (.longptr ptr)) s

/-- ADD A,([shortptr.w],X): 92 DB XX (R73, R69). -/
def execAddShortptrX (ptr : Byte) (s : State) : Host.Outcome State Fault Refusal :=
  addSource .preOpB (.mem (.shortptrX ptr)) s

/-- ADD A,([longptr.w],X): 72 DB MS LS (R73, R70). -/
def execAddLongptrX (ptr : Word) (s : State) : Host.Outcome State Fault Refusal :=
  addSource .preOpW (.mem (.longptrX ptr)) s

/-- ADD A,([shortptr.w],Y): 91 DB XX (R73, R71). -/
def execAddShortptrY (ptr : Byte) (s : State) : Host.Outcome State Fault Refusal :=
  addSource .preOpB (.mem (.shortptrY ptr)) s


end Sys2Proof.Machine
end

