-- ==== Sys2Proof/Machine/Clr.lean ====
section
/-! DEFINITION. CLR A (R79) and CLR mem (R80, R81): the one instruction that writes memory, over fourteen operand forms. -/

namespace Sys2Proof.Machine

/-- CLR A: 4F. `A <- 0x00`, `N <- 0`, `Z <- 1`, `PC <- pc0 + 1` (R79). -/
def execClrA (s : State) : Host.Outcome State Fault Refusal :=
  answer [roomCheck s Format.op.length]
    (((s.withA 0).withFlags s.flags.afterClear).advance Format.op.length)

/-- `MemWrite(EA, 1, 0x00)` without a read of the destination, `N <- 0`, `Z <- 1`, `PC <- pc0 + len` (R80). The address
is computed, pointer read included, before the byte is written (R39). -/
def clearMem (fmt : Format) (f : MemForm) (s : State) : Host.Outcome State Fault Refusal :=
  answer (roomCheck s fmt.length :: destChecks s f)
    (((s.withByte (effectiveAddress s f) 0).withFlags s.flags.afterClear).advance fmt.length)

/-- CLR shortmem: 3F XX (R80, R58). -/
def execClrShortmem (addr : Byte) (s : State) : Host.Outcome State Fault Refusal :=
  clearMem .opB (.shortmem addr) s

/-- CLR longmem: 72 5F MS LS (R80, R59). -/
def execClrLongmem (addr : Word) (s : State) : Host.Outcome State Fault Refusal :=
  clearMem .preOpW (.longmem addr) s

/-- CLR (X): 7F (R80, R60). -/
def execClrAtX (s : State) : Host.Outcome State Fault Refusal :=
  clearMem .op .atX s

/-- CLR (shortoff,X): 6F XX (R80, R61). -/
def execClrShortoffX (off : Byte) (s : State) : Host.Outcome State Fault Refusal :=
  clearMem .opB (.shortoffX off) s

/-- CLR (longoff,X): 72 4F MS LS (R80, R62). -/
def execClrLongoffX (off : Word) (s : State) : Host.Outcome State Fault Refusal :=
  clearMem .preOpW (.longoffX off) s

/-- CLR (Y): 90 7F (R80, R63). -/
def execClrAtY (s : State) : Host.Outcome State Fault Refusal :=
  clearMem .preOp .atY s

/-- CLR (shortoff,Y): 90 6F XX (R80, R64). -/
def execClrShortoffY (off : Byte) (s : State) : Host.Outcome State Fault Refusal :=
  clearMem .preOpB (.shortoffY off) s

/-- CLR (longoff,Y): 90 4F MS LS (R80, R65). -/
def execClrLongoffY (off : Word) (s : State) : Host.Outcome State Fault Refusal :=
  clearMem .preOpW (.longoffY off) s

/-- CLR (shortoff,SP): 0F XX (R80, R66). -/
def execClrShortoffSP (off : Byte) (s : State) : Host.Outcome State Fault Refusal :=
  clearMem .opB (.shortoffSP off) s

/-- CLR [shortptr.w]: 92 3F XX (R80, R67). -/
def execClrShortptr (ptr : Byte) (s : State) : Host.Outcome State Fault Refusal :=
  clearMem .preOpB (.shortptr ptr) s

/-- CLR [longptr.w]: 72 3F MS LS (R80, R68). -/
def execClrLongptr (ptr : Word) (s : State) : Host.Outcome State Fault Refusal :=
  clearMem .preOpW (.longptr ptr) s

/-- CLR ([shortptr.w],X): 92 6F XX (R80, R69). -/
def execClrShortptrX (ptr : Byte) (s : State) : Host.Outcome State Fault Refusal :=
  clearMem .preOpB (.shortptrX ptr) s

/-- CLR ([longptr.w],X): 72 6F MS LS (R80, R70). -/
def execClrLongptrX (ptr : Word) (s : State) : Host.Outcome State Fault Refusal :=
  clearMem .preOpW (.longptrX ptr) s

/-- CLR ([shortptr.w],Y): 91 6F XX (R80, R71). -/
def execClrShortptrY (ptr : Byte) (s : State) : Host.Outcome State Fault Refusal :=
  clearMem .preOpB (.shortptrY ptr) s


end Sys2Proof.Machine
end

