-- ==== Sys2Proof/Machine/Jpf.lean ====
section
/-! DEFINITION. JPF in both forms (R82, R83, R84): PC takes all 24 bits of the target, nothing else changes. -/

namespace Sys2Proof.Machine

/-- JPF extmem: AC ExtB MS LS. `PC <- target` (R82). R15 is asked of the JPF itself although it does not use the next
PC. -/
def execJpfExtmem (target : ExtAddr) (s : State) : Host.Outcome State Fault Refusal :=
  answer [roomCheck s Format.opE.length] (s.withPC target)

/-- JPF [longptr.e]: 92 AC MS LS. `PC <- MemRead(p, 3)`, the pointer at a 16-bit address (R83). -/
def execJpfLongptr (ptr : Word) (s : State) : Host.Outcome State Fault Refusal :=
  let p := ptr.toNat
  answer [roomCheck s Format.preOpW.length, readCheck s p, readCheck s (p + 1), readCheck s (p + 2)]
    (s.withPC (pointerExt s p))

end Sys2Proof.Machine
end

