-- ==== Sys2Proof/Machine/Ld.lean ====
section
/-! DEFINITION. LD A,src (R76, R77): one meaning over the fifteen operand forms, and a definition for each row. The
other LD forms the source names have no encoding and are no instructions (R78). -/

namespace Sys2Proof.Machine

/-- `A <- M`, N and Z by R77, `PC <- pc0 + len` (R76). -/
def loadSource (fmt : Format) (src : Source) (s : State) : Host.Outcome State Fault Refusal :=
  let m := sourceByte s src
  answer (roomCheck s fmt.length :: sourceChecks s src)
    (((s.withA m).withFlags (s.flags.afterLoad m)).advance fmt.length)

/-- LD A,#byte: A6 XX (R76, R57). -/
def execLdByte (imm : Byte) (s : State) : Host.Outcome State Fault Refusal :=
  loadSource .opB (.imm imm) s

/-- LD A,shortmem: B6 XX (R76, R58). -/
def execLdShortmem (addr : Byte) (s : State) : Host.Outcome State Fault Refusal :=
  loadSource .opB (.mem (.shortmem addr)) s

/-- LD A,longmem: C6 MS LS (R76, R59). -/
def execLdLongmem (addr : Word) (s : State) : Host.Outcome State Fault Refusal :=
  loadSource .opW (.mem (.longmem addr)) s

/-- LD A,(X): F6 (R76, R60). -/
def execLdAtX (s : State) : Host.Outcome State Fault Refusal :=
  loadSource .op (.mem .atX) s

/-- LD A,(shortoff,X): E6 XX (R76, R61). -/
def execLdShortoffX (off : Byte) (s : State) : Host.Outcome State Fault Refusal :=
  loadSource .opB (.mem (.shortoffX off)) s

/-- LD A,(longoff,X): D6 MS LS (R76, R62). -/
def execLdLongoffX (off : Word) (s : State) : Host.Outcome State Fault Refusal :=
  loadSource .opW (.mem (.longoffX off)) s

/-- LD A,(Y): 90 F6 (R76, R63). -/
def execLdAtY (s : State) : Host.Outcome State Fault Refusal :=
  loadSource .preOp (.mem .atY) s

/-- LD A,(shortoff,Y): 90 E6 XX (R76, R64). -/
def execLdShortoffY (off : Byte) (s : State) : Host.Outcome State Fault Refusal :=
  loadSource .preOpB (.mem (.shortoffY off)) s

/-- LD A,(longoff,Y): 90 D6 MS LS (R76, R65). -/
def execLdLongoffY (off : Word) (s : State) : Host.Outcome State Fault Refusal :=
  loadSource .preOpW (.mem (.longoffY off)) s

/-- LD A,(shortoff,SP): 7B XX (R76, R66). -/
def execLdShortoffSP (off : Byte) (s : State) : Host.Outcome State Fault Refusal :=
  loadSource .opB (.mem (.shortoffSP off)) s

/-- LD A,[shortptr.w]: 92 C6 XX (R76, R67). -/
def execLdShortptr (ptr : Byte) (s : State) : Host.Outcome State Fault Refusal :=
  loadSource .preOpB (.mem (.shortptr ptr)) s

/-- LD A,[longptr.w]: 72 C6 MS LS (R76, R68). -/
def execLdLongptr (ptr : Word) (s : State) : Host.Outcome State Fault Refusal :=
  loadSource .preOpW (.mem (.longptr ptr)) s

/-- LD A,([shortptr.w],X): 92 D6 XX (R76, R69). -/
def execLdShortptrX (ptr : Byte) (s : State) : Host.Outcome State Fault Refusal :=
  loadSource .preOpB (.mem (.shortptrX ptr)) s

/-- LD A,([longptr.w],X): 72 D6 MS LS (R76, R70). -/
def execLdLongptrX (ptr : Word) (s : State) : Host.Outcome State Fault Refusal :=
  loadSource .preOpW (.mem (.longptrX ptr)) s

/-- LD A,([shortptr.w],Y): 91 D6 XX (R76, R71). -/
def execLdShortptrY (ptr : Byte) (s : State) : Host.Outcome State Fault Refusal :=
  loadSource .preOpB (.mem (.shortptrY ptr)) s


end Sys2Proof.Machine
end

