-- ==== Sys2Proof/Machine/Sub.lean ====
section
/-! DEFINITION. SUB A,src (R85, R86, R88) over the fifteen operand forms, with a definition for each row, and
SUB SP,#byte (R87). -/

namespace Sys2Proof.Machine

/-- `A <- A - M` modulo 256, V, N, Z, C by R86, `PC <- pc0 + len` (R85). -/
def subSource (fmt : Format) (src : Source) (s : State) : Host.Outcome State Fault Refusal :=
  let m := sourceByte s src
  answer (roomCheck s fmt.length :: sourceChecks s src)
    (((s.withA (s.a - m)).withFlags (s.flags.afterSub s.a m)).advance fmt.length)

/-- SUB A,#byte: A0 XX (R85, R57). -/
def execSubByte (imm : Byte) (s : State) : Host.Outcome State Fault Refusal :=
  subSource .opB (.imm imm) s

/-- SUB A,shortmem: B0 XX (R85, R58). -/
def execSubShortmem (addr : Byte) (s : State) : Host.Outcome State Fault Refusal :=
  subSource .opB (.mem (.shortmem addr)) s

/-- SUB A,longmem: C0 MS LS (R85, R59). -/
def execSubLongmem (addr : Word) (s : State) : Host.Outcome State Fault Refusal :=
  subSource .opW (.mem (.longmem addr)) s

/-- SUB A,(X): F0 (R85, R60). -/
def execSubAtX (s : State) : Host.Outcome State Fault Refusal :=
  subSource .op (.mem .atX) s

/-- SUB A,(shortoff,X): E0 XX (R85, R61). -/
def execSubShortoffX (off : Byte) (s : State) : Host.Outcome State Fault Refusal :=
  subSource .opB (.mem (.shortoffX off)) s

/-- SUB A,(longoff,X): D0 MS LS (R85, R62). -/
def execSubLongoffX (off : Word) (s : State) : Host.Outcome State Fault Refusal :=
  subSource .opW (.mem (.longoffX off)) s

/-- SUB A,(Y): 90 F0 (R85, R63). -/
def execSubAtY (s : State) : Host.Outcome State Fault Refusal :=
  subSource .preOp (.mem .atY) s

/-- SUB A,(shortoff,Y): 90 E0 XX (R85, R64). -/
def execSubShortoffY (off : Byte) (s : State) : Host.Outcome State Fault Refusal :=
  subSource .preOpB (.mem (.shortoffY off)) s

/-- SUB A,(longoff,Y): 90 D0 MS LS (R85, R65). -/
def execSubLongoffY (off : Word) (s : State) : Host.Outcome State Fault Refusal :=
  subSource .preOpW (.mem (.longoffY off)) s

/-- SUB A,(shortoff,SP): 10 XX (R85, R66). -/
def execSubShortoffSP (off : Byte) (s : State) : Host.Outcome State Fault Refusal :=
  subSource .opB (.mem (.shortoffSP off)) s

/-- SUB A,[shortptr.w]: 92 C0 XX (R85, R67). -/
def execSubShortptr (ptr : Byte) (s : State) : Host.Outcome State Fault Refusal :=
  subSource .preOpB (.mem (.shortptr ptr)) s

/-- SUB A,[longptr.w]: 72 C0 MS LS (R85, R68). -/
def execSubLongptr (ptr : Word) (s : State) : Host.Outcome State Fault Refusal :=
  subSource .preOpW (.mem (.longptr ptr)) s

/-- SUB A,([shortptr.w],X): 92 D0 XX (R85, R69). -/
def execSubShortptrX (ptr : Byte) (s : State) : Host.Outcome State Fault Refusal :=
  subSource .preOpB (.mem (.shortptrX ptr)) s

/-- SUB A,([longptr.w],X): 72 D0 MS LS (R85, R70). -/
def execSubLongptrX (ptr : Word) (s : State) : Host.Outcome State Fault Refusal :=
  subSource .preOpW (.mem (.longptrX ptr)) s

/-- SUB A,([shortptr.w],Y): 91 D0 XX (R85, R71). -/
def execSubShortptrY (ptr : Byte) (s : State) : Host.Outcome State Fault Refusal :=
  subSource .preOpB (.mem (.shortptrY ptr)) s

/-- SUB SP,#byte: 52 XX. `SP <- SP - imm8` modulo 2^16, the byte unsigned, no flag written (R87); under the cautious
reading `SP < imm8` is refused. -/
def execSubSPByte (imm : Byte) (s : State) : Host.Outcome State Fault Refusal :=
  answer [roomCheck s Format.opB.length, ⟨s.cfg.spPolicy == .wrap || imm.toNat ≤ s.sp.toNat, .spWrap⟩]
    ((s.withSP (s.sp - imm.setWidth 16)).advance Format.opB.length)

end Sys2Proof.Machine
end

