-- ==== Sys2Proof/Machine/Dispatch.lean ====
section
/-! DEFINITION. Which meaning each instruction has: one arm per constructor, in the table's order. -/

namespace Sys2Proof.Machine

def exec (i : Instr) (s : State) : Host.Outcome State Fault Refusal :=
  match i with
  | .addByte imm => Sys2Proof.Machine.execAddByte imm s
  | .addShortmem addr => Sys2Proof.Machine.execAddShortmem addr s
  | .addLongmem addr => Sys2Proof.Machine.execAddLongmem addr s
  | .addAtX => Sys2Proof.Machine.execAddAtX s
  | .addShortoffX off => Sys2Proof.Machine.execAddShortoffX off s
  | .addLongoffX off => Sys2Proof.Machine.execAddLongoffX off s
  | .addAtY => Sys2Proof.Machine.execAddAtY s
  | .addShortoffY off => Sys2Proof.Machine.execAddShortoffY off s
  | .addLongoffY off => Sys2Proof.Machine.execAddLongoffY off s
  | .addShortoffSP off => Sys2Proof.Machine.execAddShortoffSP off s
  | .addShortptr ptr => Sys2Proof.Machine.execAddShortptr ptr s
  | .addLongptr ptr => Sys2Proof.Machine.execAddLongptr ptr s
  | .addShortptrX ptr => Sys2Proof.Machine.execAddShortptrX ptr s
  | .addLongptrX ptr => Sys2Proof.Machine.execAddLongptrX ptr s
  | .addShortptrY ptr => Sys2Proof.Machine.execAddShortptrY ptr s
  | .ldByte imm => Sys2Proof.Machine.execLdByte imm s
  | .ldShortmem addr => Sys2Proof.Machine.execLdShortmem addr s
  | .ldLongmem addr => Sys2Proof.Machine.execLdLongmem addr s
  | .ldAtX => Sys2Proof.Machine.execLdAtX s
  | .ldShortoffX off => Sys2Proof.Machine.execLdShortoffX off s
  | .ldLongoffX off => Sys2Proof.Machine.execLdLongoffX off s
  | .ldAtY => Sys2Proof.Machine.execLdAtY s
  | .ldShortoffY off => Sys2Proof.Machine.execLdShortoffY off s
  | .ldLongoffY off => Sys2Proof.Machine.execLdLongoffY off s
  | .ldShortoffSP off => Sys2Proof.Machine.execLdShortoffSP off s
  | .ldShortptr ptr => Sys2Proof.Machine.execLdShortptr ptr s
  | .ldLongptr ptr => Sys2Proof.Machine.execLdLongptr ptr s
  | .ldShortptrX ptr => Sys2Proof.Machine.execLdShortptrX ptr s
  | .ldLongptrX ptr => Sys2Proof.Machine.execLdLongptrX ptr s
  | .ldShortptrY ptr => Sys2Proof.Machine.execLdShortptrY ptr s
  | .clrA => Sys2Proof.Machine.execClrA s
  | .clrShortmem addr => Sys2Proof.Machine.execClrShortmem addr s
  | .clrLongmem addr => Sys2Proof.Machine.execClrLongmem addr s
  | .clrAtX => Sys2Proof.Machine.execClrAtX s
  | .clrShortoffX off => Sys2Proof.Machine.execClrShortoffX off s
  | .clrLongoffX off => Sys2Proof.Machine.execClrLongoffX off s
  | .clrAtY => Sys2Proof.Machine.execClrAtY s
  | .clrShortoffY off => Sys2Proof.Machine.execClrShortoffY off s
  | .clrLongoffY off => Sys2Proof.Machine.execClrLongoffY off s
  | .clrShortoffSP off => Sys2Proof.Machine.execClrShortoffSP off s
  | .clrShortptr ptr => Sys2Proof.Machine.execClrShortptr ptr s
  | .clrLongptr ptr => Sys2Proof.Machine.execClrLongptr ptr s
  | .clrShortptrX ptr => Sys2Proof.Machine.execClrShortptrX ptr s
  | .clrLongptrX ptr => Sys2Proof.Machine.execClrLongptrX ptr s
  | .clrShortptrY ptr => Sys2Proof.Machine.execClrShortptrY ptr s
  | .jpfExtmem target => Sys2Proof.Machine.execJpfExtmem target s
  | .jpfLongptr ptr => Sys2Proof.Machine.execJpfLongptr ptr s
  | .subByte imm => Sys2Proof.Machine.execSubByte imm s
  | .subShortmem addr => Sys2Proof.Machine.execSubShortmem addr s
  | .subLongmem addr => Sys2Proof.Machine.execSubLongmem addr s
  | .subAtX => Sys2Proof.Machine.execSubAtX s
  | .subShortoffX off => Sys2Proof.Machine.execSubShortoffX off s
  | .subLongoffX off => Sys2Proof.Machine.execSubLongoffX off s
  | .subAtY => Sys2Proof.Machine.execSubAtY s
  | .subShortoffY off => Sys2Proof.Machine.execSubShortoffY off s
  | .subLongoffY off => Sys2Proof.Machine.execSubLongoffY off s
  | .subShortoffSP off => Sys2Proof.Machine.execSubShortoffSP off s
  | .subShortptr ptr => Sys2Proof.Machine.execSubShortptr ptr s
  | .subLongptr ptr => Sys2Proof.Machine.execSubLongptr ptr s
  | .subShortptrX ptr => Sys2Proof.Machine.execSubShortptrX ptr s
  | .subLongptrX ptr => Sys2Proof.Machine.execSubLongptrX ptr s
  | .subShortptrY ptr => Sys2Proof.Machine.execSubShortptrY ptr s
  | .subSPByte imm => Sys2Proof.Machine.execSubSPByte imm s

end Sys2Proof.Machine
end

