-- ==== Sys2Proof/WellFormed.lean ====
section
/-! DEFINITION. Well-formedness: of an instruction as syntax, of an instruction placed at an address, and of the plain
data that the parameters are written as. -/

namespace Sys2Proof

/-- Every value of every operand byte is legal in every row (R51), and the arguments of Instr are exactly as wide as
the operand bytes (R46): no instruction of the syntax is ill-formed. -/
def Instr.wellFormed (_ : Instr) : Bool := true

/-- The instruction's bytes and the address after them lie within the 24-bit space when its first byte is at `pc0`:
what R15 asks of every instruction, JPF included. -/
def Instr.fitsAt (i : Instr) (pc0 : ExtAddr) : Bool := pc0.toNat + i.length ≤ topAddress

/-- A range names addresses of the 24-bit space, from a first to a last one that is not below it (R25). -/
def AddrRange.wellFormed (r : AddrRange) : Bool := r.first ≤ r.last && r.last ≤ topAddress

/-- The parameters are written with well-formed ranges (R4). That `CODE` lies within the readable addresses (R38) is
configLegal in Safety.lean. -/
def Config.wellFormed (c : Config) : Bool :=
  c.map.all (fun g => g.range.wellFormed) && c.code.all AddrRange.wellFormed

end Sys2Proof
end

