-- ==== Sys2Proof/Decode.lean ====
section
/-! DEFINITION. The opcode map (R47) as a table of 63 rows, the decoder of R43 over any list of bytes, which answers an
instruction with the bytes left over or rejects by name, and after it the encoder, written a second time from the same
encodings so that each checks the other. -/

namespace Sys2Proof

/-- The operand bytes of a row and the instruction they make (R46): none, `XX`, `MS LS`, or `ExtB MS LS`. -/
inductive Shape where
  | bare (i : Instr)
  | byte (make : Byte → Instr)
  | word (make : Word → Instr)
  | ext (make : ExtAddr → Instr)

/-- How many operand bytes the row has (R46). -/
def Shape.operandBytes : Shape → Nat
  | .bare _ => 0
  | .byte _ => 1
  | .word _ => 2
  | .ext _ => 3

/-- One row of R47: the precode if there is one, the opcode byte, the operand bytes, the `cy` cell (R104) and whether
the ST7 cell is marked (R1, data no rule reads). -/
structure Row where
  precode : Option Byte
  opcode  : Byte
  shape   : Shape
  cy      : Nat
  st7     : Bool

/-- The total length of the row's encoding, precode included (R40). -/
def Row.length (r : Row) : Nat :=
  (match r.precode with | none => 1 | some _ => 2) + r.shape.operandBytes

/-- The 15 ADD rows of R47. -/
def addRows : List Row :=
  [ ⟨none, 0xAB, .byte .addByte, 1, true⟩,
    ⟨none, 0xBB, .byte .addShortmem, 1, true⟩,
    ⟨none, 0xCB, .word .addLongmem, 1, true⟩,
    ⟨none, 0xFB, .bare .addAtX, 1, true⟩,
    ⟨none, 0xEB, .byte .addShortoffX, 1, true⟩,
    ⟨none, 0xDB, .word .addLongoffX, 1, true⟩,
    ⟨some 0x90, 0xFB, .bare .addAtY, 1, true⟩,
    ⟨some 0x90, 0xEB, .byte .addShortoffY, 1, true⟩,
    ⟨some 0x90, 0xDB, .word .addLongoffY, 1, true⟩,
    ⟨none, 0x1B, .byte .addShortoffSP, 1, false⟩,
    ⟨some 0x92, 0xCB, .byte .addShortptr, 4, true⟩,
    ⟨some 0x72, 0xCB, .word .addLongptr, 4, false⟩,
    ⟨some 0x92, 0xDB, .byte .addShortptrX, 4, true⟩,
    ⟨some 0x72, 0xDB, .word .addLongptrX, 4, false⟩,
    ⟨some 0x91, 0xDB, .byte .addShortptrY, 4, true⟩ ]

/-- The 15 LD rows of R47. -/
def ldRows : List Row :=
  [ ⟨none, 0xA6, .byte .ldByte, 1, true⟩,
    ⟨none, 0xB6, .byte .ldShortmem, 1, true⟩,
    ⟨none, 0xC6, .word .ldLongmem, 1, true⟩,
    ⟨none, 0xF6, .bare .ldAtX, 1, true⟩,
    ⟨none, 0xE6, .byte .ldShortoffX, 1, true⟩,
    ⟨none, 0xD6, .word .ldLongoffX, 1, true⟩,
    ⟨some 0x90, 0xF6, .bare .ldAtY, 1, true⟩,
    ⟨some 0x90, 0xE6, .byte .ldShortoffY, 1, true⟩,
    ⟨some 0x90, 0xD6, .word .ldLongoffY, 1, true⟩,
    ⟨none, 0x7B, .byte .ldShortoffSP, 1, false⟩,
    ⟨some 0x92, 0xC6, .byte .ldShortptr, 4, true⟩,
    ⟨some 0x72, 0xC6, .word .ldLongptr, 4, false⟩,
    ⟨some 0x92, 0xD6, .byte .ldShortptrX, 4, true⟩,
    ⟨some 0x72, 0xD6, .word .ldLongptrX, 4, false⟩,
    ⟨some 0x91, 0xD6, .byte .ldShortptrY, 4, true⟩ ]

/-- The 15 CLR rows of R47. -/
def clrRows : List Row :=
  [ ⟨none, 0x4F, .bare .clrA, 1, true⟩,
    ⟨none, 0x3F, .byte .clrShortmem, 1, true⟩,
    ⟨some 0x72, 0x5F, .word .clrLongmem, 1, false⟩,
    ⟨none, 0x7F, .bare .clrAtX, 1, true⟩,
    ⟨none, 0x6F, .byte .clrShortoffX, 1, true⟩,
    ⟨some 0x72, 0x4F, .word .clrLongoffX, 1, false⟩,
    ⟨some 0x90, 0x7F, .bare .clrAtY, 1, true⟩,
    ⟨some 0x90, 0x6F, .byte .clrShortoffY, 1, true⟩,
    ⟨some 0x90, 0x4F, .word .clrLongoffY, 1, false⟩,
    ⟨none, 0x0F, .byte .clrShortoffSP, 1, false⟩,
    ⟨some 0x92, 0x3F, .byte .clrShortptr, 4, true⟩,
    ⟨some 0x72, 0x3F, .word .clrLongptr, 4, false⟩,
    ⟨some 0x92, 0x6F, .byte .clrShortptrX, 4, true⟩,
    ⟨some 0x72, 0x6F, .word .clrLongptrX, 4, false⟩,
    ⟨some 0x91, 0x6F, .byte .clrShortptrY, 4, true⟩ ]

/-- The 2 JPF rows of R47. -/
def jpfRows : List Row :=
  [ ⟨none, 0xAC, .ext .jpfExtmem, 2, false⟩,
    ⟨some 0x92, 0xAC, .word .jpfLongptr, 6, false⟩ ]

/-- The 16 SUB rows of R47. -/
def subRows : List Row :=
  [ ⟨none, 0xA0, .byte .subByte, 1, true⟩,
    ⟨none, 0xB0, .byte .subShortmem, 1, true⟩,
    ⟨none, 0xC0, .word .subLongmem, 1, true⟩,
    ⟨none, 0xF0, .bare .subAtX, 1, true⟩,
    ⟨none, 0xE0, .byte .subShortoffX, 1, true⟩,
    ⟨none, 0xD0, .word .subLongoffX, 1, true⟩,
    ⟨some 0x90, 0xF0, .bare .subAtY, 1, true⟩,
    ⟨some 0x90, 0xE0, .byte .subShortoffY, 1, true⟩,
    ⟨some 0x90, 0xD0, .word .subLongoffY, 1, true⟩,
    ⟨none, 0x10, .byte .subShortoffSP, 1, false⟩,
    ⟨some 0x92, 0xC0, .byte .subShortptr, 4, true⟩,
    ⟨some 0x72, 0xC0, .word .subLongptr, 4, false⟩,
    ⟨some 0x92, 0xD0, .byte .subShortptrX, 4, true⟩,
    ⟨some 0x72, 0xD0, .word .subLongptrX, 4, false⟩,
    ⟨some 0x91, 0xD0, .byte .subShortptrY, 4, true⟩,
    ⟨none, 0x52, .byte .subSPByte, 1, false⟩ ]

/-- The opcode map: the 63 rows of R47, in its order. -/
def opcodeTable : List Row := addRows ++ ldRows ++ clrRows ++ jpfRows ++ subRows

/-- The four byte values that act as precodes (R42). -/
def isPrecode (b : Byte) : Bool := b == 0x90 || b == 0x91 || b == 0x92 || b == 0x72

/-- The row with this precode, or none, and this opcode byte (R43). -/
def findRow (precode : Option Byte) (opcode : Byte) : Option Row :=
  opcodeTable.find? (fun r => r.precode == precode && r.opcode == opcode)

/-- Why a list of bytes is no instruction: its (precode, opcode) pair is not in the table (R49), or it ends before the
instruction does. -/
inductive DecodeError where
  | notInTable
  | truncated
  deriving DecidableEq, Repr

/-- The operand bytes make one unsigned value, most significant byte first (R28, R46). -/
def Shape.assemble : Shape → List Byte → Except DecodeError (Instr × List Byte)
  | .bare i, rest => .ok (i, rest)
  | .byte make, xx :: rest => .ok (make xx, rest)
  | .word make, ms :: ls :: rest => .ok (make (ms ++ ls), rest)
  | .ext make, extB :: ms :: ls :: rest => .ok (make (extB ++ ms ++ ls), rest)
  | _, _ => .error .truncated

/-- The instruction of the row found, its operands taken from the bytes after the opcode (R43). -/
def decodeRow (row : Option Row) (operands : List Byte) : Except DecodeError (Instr × List Byte) :=
  match row with
  | none => .error .notInTable
  | some r => r.shape.assemble operands

/-- Decoding (R43): the first byte, or a precode and the byte after it, selects the row; the row says how many operand
bytes follow. Answers the instruction and the bytes after it. -/
def decode : List Byte → Except DecodeError (Instr × List Byte)
  | [] => .error .truncated
  | b0 :: rest =>
    if isPrecode b0 then
      match rest with
      | [] => .error .truncated
      | b1 :: operands => decodeRow (findRow (some b0) b1) operands
    else decodeRow (findRow none b0) rest

/-- `XX` (R46). -/
def byteOperand (v : Byte) : List Byte := [v]

/-- `MS LS` (R28, R46). -/
def wordOperand (v : Word) : List Byte := [v.extractLsb' 8 8, v.extractLsb' 0 8]

/-- `ExtB MS LS` (R28, R46). -/
def extOperand (v : ExtAddr) : List Byte := [v.extractLsb' 16 8, v.extractLsb' 8 8, v.extractLsb' 0 8]

/-- The bytes of an instruction, first byte first: precode if any, opcode, operand bytes (R40, R47). -/
def encode : Instr → List Byte
  | .addByte imm => [0xAB] ++ byteOperand imm
  | .addShortmem addr => [0xBB] ++ byteOperand addr
  | .addLongmem addr => [0xCB] ++ wordOperand addr
  | .addAtX => [0xFB]
  | .addShortoffX off => [0xEB] ++ byteOperand off
  | .addLongoffX off => [0xDB] ++ wordOperand off
  | .addAtY => [0x90, 0xFB]
  | .addShortoffY off => [0x90, 0xEB] ++ byteOperand off
  | .addLongoffY off => [0x90, 0xDB] ++ wordOperand off
  | .addShortoffSP off => [0x1B] ++ byteOperand off
  | .addShortptr ptr => [0x92, 0xCB] ++ byteOperand ptr
  | .addLongptr ptr => [0x72, 0xCB] ++ wordOperand ptr
  | .addShortptrX ptr => [0x92, 0xDB] ++ byteOperand ptr
  | .addLongptrX ptr => [0x72, 0xDB] ++ wordOperand ptr
  | .addShortptrY ptr => [0x91, 0xDB] ++ byteOperand ptr
  | .ldByte imm => [0xA6] ++ byteOperand imm
  | .ldShortmem addr => [0xB6] ++ byteOperand addr
  | .ldLongmem addr => [0xC6] ++ wordOperand addr
  | .ldAtX => [0xF6]
  | .ldShortoffX off => [0xE6] ++ byteOperand off
  | .ldLongoffX off => [0xD6] ++ wordOperand off
  | .ldAtY => [0x90, 0xF6]
  | .ldShortoffY off => [0x90, 0xE6] ++ byteOperand off
  | .ldLongoffY off => [0x90, 0xD6] ++ wordOperand off
  | .ldShortoffSP off => [0x7B] ++ byteOperand off
  | .ldShortptr ptr => [0x92, 0xC6] ++ byteOperand ptr
  | .ldLongptr ptr => [0x72, 0xC6] ++ wordOperand ptr
  | .ldShortptrX ptr => [0x92, 0xD6] ++ byteOperand ptr
  | .ldLongptrX ptr => [0x72, 0xD6] ++ wordOperand ptr
  | .ldShortptrY ptr => [0x91, 0xD6] ++ byteOperand ptr
  | .clrA => [0x4F]
  | .clrShortmem addr => [0x3F] ++ byteOperand addr
  | .clrLongmem addr => [0x72, 0x5F] ++ wordOperand addr
  | .clrAtX => [0x7F]
  | .clrShortoffX off => [0x6F] ++ byteOperand off
  | .clrLongoffX off => [0x72, 0x4F] ++ wordOperand off
  | .clrAtY => [0x90, 0x7F]
  | .clrShortoffY off => [0x90, 0x6F] ++ byteOperand off
  | .clrLongoffY off => [0x90, 0x4F] ++ wordOperand off
  | .clrShortoffSP off => [0x0F] ++ byteOperand off
  | .clrShortptr ptr => [0x92, 0x3F] ++ byteOperand ptr
  | .clrLongptr ptr => [0x72, 0x3F] ++ wordOperand ptr
  | .clrShortptrX ptr => [0x92, 0x6F] ++ byteOperand ptr
  | .clrLongptrX ptr => [0x72, 0x6F] ++ wordOperand ptr
  | .clrShortptrY ptr => [0x91, 0x6F] ++ byteOperand ptr
  | .jpfExtmem target => [0xAC] ++ extOperand target
  | .jpfLongptr ptr => [0x92, 0xAC] ++ wordOperand ptr
  | .subByte imm => [0xA0] ++ byteOperand imm
  | .subShortmem addr => [0xB0] ++ byteOperand addr
  | .subLongmem addr => [0xC0] ++ wordOperand addr
  | .subAtX => [0xF0]
  | .subShortoffX off => [0xE0] ++ byteOperand off
  | .subLongoffX off => [0xD0] ++ wordOperand off
  | .subAtY => [0x90, 0xF0]
  | .subShortoffY off => [0x90, 0xE0] ++ byteOperand off
  | .subLongoffY off => [0x90, 0xD0] ++ wordOperand off
  | .subShortoffSP off => [0x10] ++ byteOperand off
  | .subShortptr ptr => [0x92, 0xC0] ++ byteOperand ptr
  | .subLongptr ptr => [0x72, 0xC0] ++ wordOperand ptr
  | .subShortptrX ptr => [0x92, 0xD0] ++ byteOperand ptr
  | .subLongptrX ptr => [0x72, 0xD0] ++ wordOperand ptr
  | .subShortptrY ptr => [0x91, 0xD0] ++ byteOperand ptr
  | .subSPByte imm => [0x52] ++ byteOperand imm

/-- The row an instruction's own encoding selects (R43). -/
def Instr.row? (i : Instr) : Option Row :=
  match encode i with
  | [] => none
  | b0 :: rest => if isPrecode b0 then rest.head?.bind (findRow (some b0)) else findRow none b0

/-- The cycle count of the instruction's row (R104): data, which no step reads (assumption log 20). -/
def Instr.cycles (i : Instr) : Option Nat := i.row?.map Row.cy

/-- `n` bytes of the number `w`, the most significant first. -/
def bytesOf : Nat → Nat → List Byte
  | 0, _ => []
  | n + 1, w => BitVec.ofNat 8 (w / 256 ^ n) :: bytesOf n w

/-- The longest encoding, in bytes (R40). -/
def maxLength : Nat := 4

/-- The bytes of the instruction that spec/opcode_table.json writes as the `nbits`-bit number `w`: the byte at `pc0`
is the most significant one, as the table's `match` and `fixed` have it, and zeros follow up to the longest encoding
(assumption log 22). -/
def tableBytes (nbits w : Nat) : List Byte :=
  bytesOf ((nbits + 7) / 8) w ++ List.replicate (maxLength - (nbits + 7) / 8) 0

/-- What the decoder reads from a word of the opcode table. -/
def decodeTableWord (nbits w : Nat) : Option Instr :=
  match decode (tableBytes nbits w) with
  | .ok (i, _) => some i
  | .error _ => none

end Sys2Proof
end

