-- ==== Sys2Proof/Machine/Fetch.lean ====
section
/-! DEFINITION. Fetching the instruction at PC: the row its first one or two bytes select, and the checks 1 to 5 of
R92, in their order. -/

namespace Sys2Proof.Machine

/-- The byte of the instruction stream at `pc0 + k`, its check apart (R31). -/
def codeByte (s : State) (k : Nat) : Byte := s.mem.read (s.pc.toNat + k)

/-- The row the bytes at PC select (R43). -/
def fetchedRow (s : State) : Option Row :=
  if isPrecode (codeByte s 0) then findRow (some (codeByte s 0)) (codeByte s 1) else findRow none (codeByte s 0)

/-- How many bytes are fetched before the row is known: 2 with a precode, else 1 (R43). -/
def headLength (s : State) : Nat := if isPrecode (codeByte s 0) then 2 else 1

/-- Checks 4 and 5 of R92: the whole instruction fits, and each of its `n` bytes from `k` on is in `CODE`. -/
def operandChecks (s : State) : Nat → Nat → List Check
  | _, 0 => []
  | k, n + 1 => fetchCheck s (s.pc.toNat + k) :: operandChecks s (k + 1) n

/-- Checks 1 to 5 of R92 in their order. -/
def fetchChecks (s : State) : List Check :=
  fetchCheck s s.pc.toNat ::
  (if isPrecode (codeByte s 0) then [roomCheck s 1, fetchCheck s (s.pc.toNat + 1)] else []) ++
  (match fetchedRow s with
   | none => [⟨false, .notInTable⟩]
   | some row => roomCheck s row.length :: operandChecks s (headLength s) row.shape.operandBytes)

/-- The instruction the bytes at PC decode to (R43); the decoder looks at no byte after it. -/
def fetchedInstr (s : State) : Option Instr :=
  match decode (s.mem.readBytes s.pc.toNat maxLength) with
  | .ok (i, _) => some i
  | .error _ => none

end Sys2Proof.Machine
end

