-- ==== Sys2Proof/Machine/Step.lean ====
section
/-! DEFINITION. One step of the machine, and the state that is about to run a given word. -/

namespace Sys2Proof.Machine

/-- One step: nothing is fetched at a stop address (R101); otherwise the instruction at PC is fetched under checks 1 to
5 of R92, decoded (R43) and run. After those checks the bytes always decode; the last arm keeps the function total. -/
def step (s : State) : Host.Outcome State Fault Refusal :=
  if isStop s.cfg s.pc then .fault .final
  else
    match firstRefusal (fetchChecks s) with
    | some r => .refused r
    | none =>
      match fetchedInstr s with
      | some i => exec i s
      | none => .refused .notInTable

/-- The state with the instruction of an opcode-table word loaded at PC: its bytes stored there, their addresses put in
`CODE`, and PC taken out of `STOP`, which is all that fetching it needs. The load is made from outside the machine
(R102, assumption log 4). -/
def State.withFetchWord (s : State) (nbits w : Nat) : State :=
  { s with
    mem := s.mem.writeBytes s.pc.toNat (tableBytes nbits w)
    cfg := { s.cfg with
      code := ⟨s.pc.toNat, s.pc.toNat + (tableBytes nbits w).length - 1⟩ :: s.cfg.code
      stop := s.cfg.stop.filter (fun p => p != s.pc) } }

end Sys2Proof.Machine
end

