-- ==== Sys2Proof/Machine/Asm.lean ====
section
/-! DEFINITION. The assembler spelling of each instruction (R52, R53, with C1, C2 and C6): upper case, destination before
source, `$` before a hexadecimal number without leading zeros, as the source's 63 examples have it. A spelling names no
encoding: the spec does not say how an assembler chooses between a short and a long form (assumption log 25). -/

namespace Sys2Proof.Machine

def hexDigit (d : Nat) : Char := if d < 10 then Char.ofNat (48 + d) else Char.ofNat (55 + d)

/-- The `k` low hexadecimal digits of a number, the most significant first. -/
def hexDigits : Nat → Nat → List Char
  | 0, _ => []
  | k + 1, n => hexDigit (n / 16 ^ k % 16) :: hexDigits k n

/-- `$` and the hexadecimal digits of a number of at most 24 bits (R53). -/
def asmNumber (n : Nat) : String :=
  let digits := (hexDigits 6 n).dropWhile (fun c => c == '0')
  "$" ++ String.ofList (if digits.isEmpty then ['0'] else digits)

/-- The operand spellings of R52. -/
def asmMem : MemForm → String
  | .shortmem addr => asmNumber addr.toNat
  | .longmem addr => asmNumber addr.toNat
  | .atX => "(X)"
  | .shortoffX off => "(" ++ asmNumber off.toNat ++ ",X)"
  | .longoffX off => "(" ++ asmNumber off.toNat ++ ",X)"
  | .atY => "(Y)"
  | .shortoffY off => "(" ++ asmNumber off.toNat ++ ",Y)"
  | .longoffY off => "(" ++ asmNumber off.toNat ++ ",Y)"
  | .shortoffSP off => "(" ++ asmNumber off.toNat ++ ",SP)"
  | .shortptr ptr => "[" ++ asmNumber ptr.toNat ++ ".w]"
  | .longptr ptr => "[" ++ asmNumber ptr.toNat ++ ".w]"
  | .shortptrX ptr => "([" ++ asmNumber ptr.toNat ++ ".w],X)"
  | .longptrX ptr => "([" ++ asmNumber ptr.toNat ++ ".w],X)"
  | .shortptrY ptr => "([" ++ asmNumber ptr.toNat ++ ".w],Y)"

/-- The immediate spelling `#n` (R52). -/
def asmImm (v : Byte) : String := "#" ++ asmNumber v.toNat

/-- The instruction as the `Asm` column writes it (R52). -/
def asm : Instr → String
  | .addByte imm => "ADD A," ++ asmImm imm
  | .addShortmem addr => "ADD A," ++ asmMem (.shortmem addr)
  | .addLongmem addr => "ADD A," ++ asmMem (.longmem addr)
  | .addAtX => "ADD A," ++ asmMem .atX
  | .addShortoffX off => "ADD A," ++ asmMem (.shortoffX off)
  | .addLongoffX off => "ADD A," ++ asmMem (.longoffX off)
  | .addAtY => "ADD A," ++ asmMem .atY
  | .addShortoffY off => "ADD A," ++ asmMem (.shortoffY off)
  | .addLongoffY off => "ADD A," ++ asmMem (.longoffY off)
  | .addShortoffSP off => "ADD A," ++ asmMem (.shortoffSP off)
  | .addShortptr ptr => "ADD A," ++ asmMem (.shortptr ptr)
  | .addLongptr ptr => "ADD A," ++ asmMem (.longptr ptr)
  | .addShortptrX ptr => "ADD A," ++ asmMem (.shortptrX ptr)
  | .addLongptrX ptr => "ADD A," ++ asmMem (.longptrX ptr)
  | .addShortptrY ptr => "ADD A," ++ asmMem (.shortptrY ptr)
  | .ldByte imm => "LD A," ++ asmImm imm
  | .ldShortmem addr => "LD A," ++ asmMem (.shortmem addr)
  | .ldLongmem addr => "LD A," ++ asmMem (.longmem addr)
  | .ldAtX => "LD A," ++ asmMem .atX
  | .ldShortoffX off => "LD A," ++ asmMem (.shortoffX off)
  | .ldLongoffX off => "LD A," ++ asmMem (.longoffX off)
  | .ldAtY => "LD A," ++ asmMem .atY
  | .ldShortoffY off => "LD A," ++ asmMem (.shortoffY off)
  | .ldLongoffY off => "LD A," ++ asmMem (.longoffY off)
  | .ldShortoffSP off => "LD A," ++ asmMem (.shortoffSP off)
  | .ldShortptr ptr => "LD A," ++ asmMem (.shortptr ptr)
  | .ldLongptr ptr => "LD A," ++ asmMem (.longptr ptr)
  | .ldShortptrX ptr => "LD A," ++ asmMem (.shortptrX ptr)
  | .ldLongptrX ptr => "LD A," ++ asmMem (.longptrX ptr)
  | .ldShortptrY ptr => "LD A," ++ asmMem (.shortptrY ptr)
  | .clrA => "CLR A"
  | .clrShortmem addr => "CLR " ++ asmMem (.shortmem addr)
  | .clrLongmem addr => "CLR " ++ asmMem (.longmem addr)
  | .clrAtX => "CLR " ++ asmMem .atX
  | .clrShortoffX off => "CLR " ++ asmMem (.shortoffX off)
  | .clrLongoffX off => "CLR " ++ asmMem (.longoffX off)
  | .clrAtY => "CLR " ++ asmMem .atY
  | .clrShortoffY off => "CLR " ++ asmMem (.shortoffY off)
  | .clrLongoffY off => "CLR " ++ asmMem (.longoffY off)
  | .clrShortoffSP off => "CLR " ++ asmMem (.shortoffSP off)
  | .clrShortptr ptr => "CLR " ++ asmMem (.shortptr ptr)
  | .clrLongptr ptr => "CLR " ++ asmMem (.longptr ptr)
  | .clrShortptrX ptr => "CLR " ++ asmMem (.shortptrX ptr)
  | .clrLongptrX ptr => "CLR " ++ asmMem (.longptrX ptr)
  | .clrShortptrY ptr => "CLR " ++ asmMem (.shortptrY ptr)
  | .jpfExtmem target => "JPF " ++ asmNumber target.toNat
  | .jpfLongptr ptr => "JPF [" ++ asmNumber ptr.toNat ++ ".e]"
  | .subByte imm => "SUB A," ++ asmImm imm
  | .subShortmem addr => "SUB A," ++ asmMem (.shortmem addr)
  | .subLongmem addr => "SUB A," ++ asmMem (.longmem addr)
  | .subAtX => "SUB A," ++ asmMem .atX
  | .subShortoffX off => "SUB A," ++ asmMem (.shortoffX off)
  | .subLongoffX off => "SUB A," ++ asmMem (.longoffX off)
  | .subAtY => "SUB A," ++ asmMem .atY
  | .subShortoffY off => "SUB A," ++ asmMem (.shortoffY off)
  | .subLongoffY off => "SUB A," ++ asmMem (.longoffY off)
  | .subShortoffSP off => "SUB A," ++ asmMem (.shortoffSP off)
  | .subShortptr ptr => "SUB A," ++ asmMem (.shortptr ptr)
  | .subLongptr ptr => "SUB A," ++ asmMem (.longptr ptr)
  | .subShortptrX ptr => "SUB A," ++ asmMem (.shortptrX ptr)
  | .subLongptrX ptr => "SUB A," ++ asmMem (.longptrX ptr)
  | .subShortptrY ptr => "SUB A," ++ asmMem (.shortptrY ptr)
  | .subSPByte imm => "SUB SP," ++ asmImm imm

end Sys2Proof.Machine
end

