-- ==== Sys2Proof/Safety.lean ====
section
/-! DEFINITION. The terms claims are made in: when a run is over, which launch states are legal, what an instruction
needs in order to complete, and the instructions of one mnemonic as a function of their operand. -/

namespace Sys2Proof.Machine

/-- The state is final: PC is a stop address (R101). -/
def State.final (s : State) : Prop := isStop s.cfg s.pc = true

/-- `CODE` lies within the addresses `MAP` makes readable (R38). -/
def configLegal (c : Config) : Prop := ∀ addr, inCode c addr = true → readable c addr = true

/-- What a launch state must satisfy for the rules to hold from the first step (R100): a legal configuration, and PC in
`CODE` or already at a stop address. Memory is in its canonical form, which is the model's own condition. -/
def State.launchable (s : State) : Prop :=
  configLegal s.cfg ∧ s.mem.wf = true ∧ (inCode s.cfg s.pc.toNat = true ∨ s.final)

/-- `k` steps of the machine the host runs, stopping at the first fault or refusal. -/
def run (k : Nat) (s : State) : Host.Outcome State Fault Refusal := Host.Core.run Sys2Proof.core k s

/-- The bytes of an instruction of `len` bytes, and the address after them, fit the address space (R15). -/
def State.hasRoom (s : State) (len : Nat) : Prop := s.pc.toNat + len ≤ 0xFFFFFF

/-- The form gives an address: its pointer bytes are readable (R32) and, under the cautious reading only, the address
is below 0x010000 (R56). -/
def addressAdmitted (s : State) (f : MemForm) : Prop :=
  (∀ p, pointerAddress f = some p → readable s.cfg p = true ∧ readable s.cfg (p + 1) = true) ∧
  (s.cfg.eaPolicy = .carry ∨ effectiveAddress s f < 0x10000)

/-- The source gives a byte (R55, R57, R32). -/
def sourceAdmitted (s : State) : Source → Prop
  | .imm _ => True
  | .mem f => addressAdmitted s f ∧ readable s.cfg (effectiveAddress s f) = true

/-- The form takes a byte: its address is not in `CODE` and is writable (R33). -/
def destAdmitted (s : State) (f : MemForm) : Prop :=
  addressAdmitted s f ∧ inCode s.cfg (effectiveAddress s f) = false ∧ writable s.cfg (effectiveAddress s f) = true

/-- Every address is RAM and both optional readings are the spec's default: nothing but R15, R31 and R33's rule on
`CODE` can then refuse a step. -/
def plainRam (c : Config) : Prop :=
  (∀ addr, addr ≤ 0xFFFFFF → kindAt c addr = .ram) ∧ c.eaPolicy = .carry ∧ c.spPolicy = .wrap

/-- Flag by flag: `new` where `written` marks the flag, `old` elsewhere. -/
def Flags.select (written new old : Flags) : Flags where
  v := if written.v then new.v else old.v
  i1 := if written.i1 then new.i1 else old.i1
  h := if written.h then new.h else old.h
  i0 := if written.i0 then new.i0 else old.i0
  n := if written.n then new.n else old.n
  z := if written.z then new.z else old.z
  c := if written.c then new.c else old.c

/-- ADD A,src by its source (R73). -/
def addInstr : Source → Instr
  | .imm m => .addByte m
  | .mem (.shortmem addr) => .addShortmem addr
  | .mem (.longmem addr) => .addLongmem addr
  | .mem .atX => .addAtX
  | .mem (.shortoffX off) => .addShortoffX off
  | .mem (.longoffX off) => .addLongoffX off
  | .mem .atY => .addAtY
  | .mem (.shortoffY off) => .addShortoffY off
  | .mem (.longoffY off) => .addLongoffY off
  | .mem (.shortoffSP off) => .addShortoffSP off
  | .mem (.shortptr ptr) => .addShortptr ptr
  | .mem (.longptr ptr) => .addLongptr ptr
  | .mem (.shortptrX ptr) => .addShortptrX ptr
  | .mem (.longptrX ptr) => .addLongptrX ptr
  | .mem (.shortptrY ptr) => .addShortptrY ptr

/-- LD A,src by its source (R76). -/
def ldInstr : Source → Instr
  | .imm m => .ldByte m
  | .mem (.shortmem addr) => .ldShortmem addr
  | .mem (.longmem addr) => .ldLongmem addr
  | .mem .atX => .ldAtX
  | .mem (.shortoffX off) => .ldShortoffX off
  | .mem (.longoffX off) => .ldLongoffX off
  | .mem .atY => .ldAtY
  | .mem (.shortoffY off) => .ldShortoffY off
  | .mem (.longoffY off) => .ldLongoffY off
  | .mem (.shortoffSP off) => .ldShortoffSP off
  | .mem (.shortptr ptr) => .ldShortptr ptr
  | .mem (.longptr ptr) => .ldLongptr ptr
  | .mem (.shortptrX ptr) => .ldShortptrX ptr
  | .mem (.longptrX ptr) => .ldLongptrX ptr
  | .mem (.shortptrY ptr) => .ldShortptrY ptr

/-- SUB A,src by its source (R85). -/
def subInstr : Source → Instr
  | .imm m => .subByte m
  | .mem (.shortmem addr) => .subShortmem addr
  | .mem (.longmem addr) => .subLongmem addr
  | .mem .atX => .subAtX
  | .mem (.shortoffX off) => .subShortoffX off
  | .mem (.longoffX off) => .subLongoffX off
  | .mem .atY => .subAtY
  | .mem (.shortoffY off) => .subShortoffY off
  | .mem (.longoffY off) => .subLongoffY off
  | .mem (.shortoffSP off) => .subShortoffSP off
  | .mem (.shortptr ptr) => .subShortptr ptr
  | .mem (.longptr ptr) => .subLongptr ptr
  | .mem (.shortptrX ptr) => .subShortptrX ptr
  | .mem (.longptrX ptr) => .subLongptrX ptr
  | .mem (.shortptrY ptr) => .subShortptrY ptr

/-- CLR mem by its destination (R80). -/
def clrInstr : MemForm → Instr
  | .shortmem addr => .clrShortmem addr
  | .longmem addr => .clrLongmem addr
  | .atX => .clrAtX
  | .shortoffX off => .clrShortoffX off
  | .longoffX off => .clrLongoffX off
  | .atY => .clrAtY
  | .shortoffY off => .clrShortoffY off
  | .longoffY off => .clrLongoffY off
  | .shortoffSP off => .clrShortoffSP off
  | .shortptr ptr => .clrShortptr ptr
  | .longptr ptr => .clrLongptr ptr
  | .shortptrX ptr => .clrShortptrX ptr
  | .longptrX ptr => .clrLongptrX ptr
  | .shortptrY ptr => .clrShortptrY ptr

end Sys2Proof.Machine
end

