-- ==== Sys2Proof/Certificates/Slice0/Obligations.lean ====
section
/-! DEFINITION. The statements for the provers. Each docstring names the rule or section of spec/ it rests on. -/

open Sys2Proof Sys2Proof.Machine

/-! ### Reset and launch -/

/-- Log entries 1 to 5: the state after reset, as the model chooses it. The spec gives no reset value (R24); the
values are GK6's for A, X, Y, the flags and PC, and those the spec's programs launch with for SP. -/
def Obligations.ResetValues : Prop :=
  State.reset.a = 0 ∧ State.reset.x = 0 ∧ State.reset.y = 0 ∧ State.reset.sp = 0x03FF ∧ State.reset.pc = 0x008000 ∧
  State.reset.flags = { v := false, i1 := true, h := false, i0 := true, n := false, z := false, c := false } ∧
  (∀ addr, State.reset.mem.read addr = 0) ∧ plainRam State.reset.cfg ∧
  (∀ addr, inCode State.reset.cfg addr = false) ∧ ¬ State.reset.final

/-- The memory after reset is in canonical form, and `CODE` after reset lies within the readable addresses (R38):
what StepKeepsMemoryCanonical and RunKeepsFixedState carry on. -/
def Obligations.ResetMeetsInvariants : Prop :=
  State.reset.mem.wf = true ∧ configLegal State.reset.cfg

/-! ### Encoding and decoding -/

/-- 30_encoding sections 2 to 4: decoding an encoded instruction, whatever follows it, gives it back with every
operand. -/
def Obligations.DecodeEncode : Prop :=
  ∀ (i : Instr) (rest : List Byte), i.wellFormed = true → decode (encode i ++ rest) = .ok (i, rest)

/-- 30_encoding sections 2 and 4: bytes that decode are the encoding of what they decode to, followed by what is
left over. -/
def Obligations.EncodeDecode : Prop :=
  ∀ (bytes : List Byte) (i : Instr) (rest : List Byte), decode bytes = .ok (i, rest) →
    bytes = encode i ++ rest ∧ (encode i).length = i.length

/-- 95_test_vectors section 2.9: words written out from the encodings, and byte strings that are in no row. -/
def Obligations.DecodeSpecWords : Prop :=
  decode [0xFB] = .ok (.addAtX, []) ∧ decode [0x90, 0xFB] = .ok (.addAtY, []) ∧
  decode [0x92, 0xCB, 0x10] = .ok (.addShortptr 0x10, []) ∧
  decode [0x72, 0xCB, 0x10, 0x00] = .ok (.addLongptr 0x1000, []) ∧
  decode [0xCB, 0x10, 0x00] = .ok (.addLongmem 0x1000, []) ∧
  decode [0x92, 0xAC, 0x00, 0x40] = .ok (.jpfLongptr 0x0040, []) ∧
  decode [0xAC, 0x2F, 0xFF, 0xFC] = .ok (.jpfExtmem 0x2FFFFC, []) ∧
  decode [0xA6, 0x55] = .ok (.ldByte 0x55, []) ∧
  decode [0x72, 0x4F, 0x10, 0x00] = .ok (.clrLongoffX 0x1000, []) ∧ decode [0x4F] = .ok (.clrA, []) ∧
  decode [0x90, 0x4F, 0x10, 0x00] = .ok (.clrLongoffY 0x1000, []) ∧
  decode [0x72, 0x5F, 0x10, 0x00] = .ok (.clrLongmem 0x1000, []) ∧
  decode [0x10, 0x02] = .ok (.subShortoffSP 0x02, []) ∧ decode [0x52, 0x04] = .ok (.subSPByte 0x04, []) ∧
  decode [0x5F] = .error .notInTable ∧ decode [0x9D] = .error .notInTable ∧
  decode [0x90, 0xAB, 0x01] = .error .notInTable ∧ decode [0x91, 0xFB] = .error .notInTable ∧
  decode [0x72, 0xAC, 0x00, 0x40] = .error .notInTable ∧ decode [0x92, 0x1B, 0x10] = .error .notInTable ∧
  decode [0x90, 0x90, 0xFB] = .error .notInTable

/-- 30_encoding sections 2, 4 and 5: the table has 63 rows; 28 first bytes that are no precode are in it, and 12, 4,
9 and 10 of the second bytes after 0x90, 0x91, 0x92 and 0x72; no precode is the opcode byte of a row, alone or after
a precode. -/
def Obligations.TableCounts : Prop :=
  opcodeTable.length = 63 ∧
  (List.range 256).countP (fun b => (findRow none (BitVec.ofNat 8 b)).isSome) = 28 ∧
  (List.range 256).countP (fun b => (findRow (some 0x90) (BitVec.ofNat 8 b)).isSome) = 12 ∧
  (List.range 256).countP (fun b => (findRow (some 0x91) (BitVec.ofNat 8 b)).isSome) = 4 ∧
  (List.range 256).countP (fun b => (findRow (some 0x92) (BitVec.ofNat 8 b)).isSome) = 9 ∧
  (List.range 256).countP (fun b => (findRow (some 0x72) (BitVec.ofNat 8 b)).isSome) = 10 ∧
  (∀ (p : Option Byte) (o : Byte), isPrecode o = true → findRow p o = none)

/-- 70_reset_and_hazards section 5 (data, decision D21): the cycle count of every instruction, as the `cy` column
has it. -/
def Obligations.CyclesAsPrinted : Prop :=
  (∀ m, (addInstr (.imm m)).cycles = some 1 ∧ (ldInstr (.imm m)).cycles = some 1 ∧
    (subInstr (.imm m)).cycles = some 1 ∧ (Instr.subSPByte m).cycles = some 1) ∧
  (∀ f, (addInstr (.mem f)).cycles = some (if (pointerAddress f).isSome then 4 else 1) ∧
    (ldInstr (.mem f)).cycles = some (if (pointerAddress f).isSome then 4 else 1) ∧
    (subInstr (.mem f)).cycles = some (if (pointerAddress f).isSome then 4 else 1) ∧
    (clrInstr f).cycles = some (if (pointerAddress f).isSome then 4 else 1)) ∧
  Instr.clrA.cycles = some 1 ∧ (∀ t, (Instr.jpfExtmem t).cycles = some 2) ∧
  (∀ p, (Instr.jpfLongptr p).cycles = some 6)

/-! ### The step -/

/-- 30_encoding section 2, 60_exceptions section 3 (decisions D10, D13; log 13): where PC is no stop address and the
bytes at PC decode to an instruction all of whose bytes are in `CODE` and which fits the address space, a step runs
exactly that instruction, and adds nothing to it. -/
def Obligations.StepRunsDecoded : Prop :=
  ∀ (s : State) (i : Instr) (rest : List Byte), ¬ s.final → i.wellFormed = true → s.hasRoom i.length →
    (∀ k, k < i.length → inCode s.cfg (s.pc.toNat + k) = true) →
    decode (s.mem.readBytes s.pc.toNat 4) = .ok (i, rest) → step s = exec i s

/-- 20_memory section 3, 70_reset_and_hazards section 3 (decisions D8, D13, D16; log 5, 13, 15): a step that gives a
next state ran an instruction whose bytes stand at PC, all of them in `CODE` and, with the address after them,
within the address space, at a PC that is no stop address. -/
def Obligations.NextOnlyFromCode : Prop :=
  ∀ (s t : State), step s = .next t → ¬ s.final ∧ ∃ i, exec i s = .next t ∧ s.hasRoom i.length ∧
    s.mem.readBytes s.pc.toNat i.length = encode i ∧
    ∀ k, k < i.length → inCode s.cfg (s.pc.toNat + k) = true

/-- 60_exceptions section 1, 70_reset_and_hazards section 3 (decisions D10, D16; log 5): a state with PC in `STOP`
is final; a step faults there, with the name of that, and nowhere else. -/
def Obligations.StopIsTheOnlyFault : Prop :=
  ∀ (s : State) (e : Fault), step s = .fault e ↔ s.final ∧ e = .final

/-- 60_exceptions section 3, items 1 to 5 (decisions D8, D10, D13, D14; log 13, 14, 15): which refusal a step
answers before the instruction runs, the first check that fails deciding. Clauses: PC outside `CODE`; a precode at
0xFFFFFF; the byte after a precode outside `CODE`; a pair in no row; no room for the row found; a later byte outside
`CODE`. -/
def Obligations.FetchRefusalOrder : Prop :=
  ∀ (s : State), ¬ s.final →
    (inCode s.cfg s.pc.toNat = false → step s = .refused .fetchOutsideCode) ∧
    (inCode s.cfg s.pc.toNat = true →
      (isPrecode (s.mem.read s.pc.toNat) = true → s.pc.toNat = 0xFFFFFF → step s = .refused .pcWrap) ∧
      (isPrecode (s.mem.read s.pc.toNat) = true → s.pc.toNat < 0xFFFFFF →
        inCode s.cfg (s.pc.toNat + 1) = false → step s = .refused .fetchOutsideCode) ∧
      (isPrecode (s.mem.read s.pc.toNat) = true → s.pc.toNat < 0xFFFFFF →
        inCode s.cfg (s.pc.toNat + 1) = true →
        findRow (some (s.mem.read s.pc.toNat)) (s.mem.read (s.pc.toNat + 1)) = none →
        step s = .refused .notInTable) ∧
      (isPrecode (s.mem.read s.pc.toNat) = false → findRow none (s.mem.read s.pc.toNat) = none →
        step s = .refused .notInTable) ∧
      (∀ i rest, decode (s.mem.readBytes s.pc.toNat 4) = .ok (i, rest) →
        (isPrecode (s.mem.read s.pc.toNat) = true →
          s.pc.toNat < 0xFFFFFF ∧ inCode s.cfg (s.pc.toNat + 1) = true) →
        (0xFFFFFF < s.pc.toNat + i.length → step s = .refused .pcWrap) ∧
        (s.pc.toNat + i.length ≤ 0xFFFFFF →
          (∃ k, k < i.length ∧ inCode s.cfg (s.pc.toNat + k) = false) → step s = .refused .fetchOutsideCode)))

/-- 60_exceptions section 1 (decisions D10, D14): the outcomes of a step are a next state, the final state, and the
refusals of the closed list; the two optional refusals occur only under the cautious reading that names them. -/
def Obligations.OutcomesAreClosed : Prop :=
  ∀ (s : State) (r : Refusal), step s = .refused r →
    r = .fetchOutsideCode ∨ r = .pcWrap ∨ r = .notInTable ∨ r = .readNotAdmitted ∨ r = .writeNotAdmitted ∨
    r = .writeToCode ∨ (r = .eaCarry ∧ s.cfg.eaPolicy = .refuse) ∨ (r = .spWrap ∧ s.cfg.spPolicy = .refuse)

/-- 10_state section 2 (decision D8; log 15): an instruction is refused with PcWrap exactly when a byte of it, or
the address after it, lies beyond the top of the address space, JPF included. -/
def Obligations.PcWrapExactly : Prop :=
  ∀ (i : Instr) (s : State), exec i s = .refused .pcWrap ↔ 0xFFFFFF < s.pc.toNat + i.length

/-! ### Operands -/

/-- 20_memory section 2 (decision D4; log 7): with the spec's byte order the byte at the pointer's address is its
most significant one, for 2-byte and 3-byte pointers alike; with the other value of D4's configuration field it is
the least significant one. -/
def Obligations.PointersAreMostSignificantFirst : Prop :=
  ∀ (s : State) (p : Nat),
    (s.cfg.pointerOrder = .msFirst →
      (pointerWord s p).toNat = 0x100 * (s.mem.read p).toNat + (s.mem.read (p + 1)).toNat ∧
      (pointerExt s p).toNat =
        0x10000 * (s.mem.read p).toNat + 0x100 * (s.mem.read (p + 1)).toNat + (s.mem.read (p + 2)).toNat) ∧
    (s.cfg.pointerOrder = .lsFirst →
      (pointerWord s p).toNat = (s.mem.read p).toNat + 0x100 * (s.mem.read (p + 1)).toNat ∧
      (pointerExt s p).toNat =
        (s.mem.read p).toNat + 0x100 * (s.mem.read (p + 1)).toNat + 0x10000 * (s.mem.read (p + 2)).toNat)

/-- 40_operands section 2 (decisions D3, D4, D5, D6, D25; log 7, 8, 10, 18, 26): the effective address of each of the
fourteen memory forms, its parts unsigned, added without truncation, the pointer read before the index is added, in
either byte order of pointers. -/
def Obligations.EffectiveAddresses : Prop :=
  ∀ (s : State) (b : Byte) (w : Word),
    let pointerAt := fun p =>
      match s.cfg.pointerOrder with
      | .msFirst => 0x100 * (s.mem.read p).toNat + (s.mem.read (p + 1)).toNat
      | .lsFirst => (s.mem.read p).toNat + 0x100 * (s.mem.read (p + 1)).toNat
    effectiveAddress s (.shortmem b) = b.toNat ∧
    effectiveAddress s (.longmem w) = w.toNat ∧
    effectiveAddress s .atX = s.x.toNat ∧
    effectiveAddress s (.shortoffX b) = s.x.toNat + b.toNat ∧
    effectiveAddress s (.longoffX w) = s.x.toNat + w.toNat ∧
    effectiveAddress s .atY = s.y.toNat ∧
    effectiveAddress s (.shortoffY b) = s.y.toNat + b.toNat ∧
    effectiveAddress s (.longoffY w) = s.y.toNat + w.toNat ∧
    effectiveAddress s (.shortoffSP b) = s.sp.toNat + b.toNat ∧
    effectiveAddress s (.shortptr b) = pointerAt b.toNat ∧
    effectiveAddress s (.longptr w) = pointerAt w.toNat ∧
    effectiveAddress s (.shortptrX b) = pointerAt b.toNat + s.x.toNat ∧
    effectiveAddress s (.longptrX w) = pointerAt w.toNat + s.x.toNat ∧
    effectiveAddress s (.shortptrY b) = pointerAt b.toNat + s.y.toNat

/-- 20_memory section 1, the table of ranges (derived there from decision D5; log 8): the ranges each form can
reach, pointer and address. -/
def Obligations.AddressRanges : Prop :=
  (∀ (s : State) (b : Byte), effectiveAddress s (.shortmem b) ≤ 0x0000FF ∧
    effectiveAddress s (.shortoffX b) ≤ 0x0100FE ∧ effectiveAddress s (.shortoffY b) ≤ 0x0100FE ∧
    effectiveAddress s (.shortoffSP b) ≤ 0x0100FE ∧ effectiveAddress s (.shortptr b) ≤ 0x00FFFF ∧
    effectiveAddress s (.shortptrX b) ≤ 0x01FFFE ∧ effectiveAddress s (.shortptrY b) ≤ 0x01FFFE) ∧
  (∀ (s : State) (w : Word), effectiveAddress s (.longmem w) ≤ 0x00FFFF ∧
    effectiveAddress s (.longoffX w) ≤ 0x01FFFE ∧ effectiveAddress s (.longoffY w) ≤ 0x01FFFE ∧
    effectiveAddress s (.longptr w) ≤ 0x00FFFF ∧ effectiveAddress s (.longptrX w) ≤ 0x01FFFE) ∧
  (∀ (s : State), effectiveAddress s .atX ≤ 0x00FFFF ∧ effectiveAddress s .atY ≤ 0x00FFFF) ∧
  (∀ (f : MemForm) (p : Nat), pointerAddress f = some p → p ≤ 0xFFFF ∧
    ((∃ b : Byte, f = .shortptr b ∨ f = .shortptrX b ∨ f = .shortptrY b) → p ≤ 0xFF)) ∧
  (∀ (s : State) (f : MemForm), effectiveAddress s f ≤ 0x01FFFE)

/-! ### ADD, LD, SUB A: results -/

/-- 41_add (PC by decision D8, the map D9; log 3, 23): for each of the fifteen sources, where the instruction fits
and its source byte M may be read, ADD A,src completes: A is the sum modulo 256; V signed overflow, H the carry from
bit 3, N bit 7 of the result, Z the result is zero, C the carry from bit 7; PC is past the instruction; nothing else
changes. -/
def Obligations.AddCompletes : Prop :=
  ∀ (src : Source) (s : State), s.hasRoom (addInstr src).length → sourceAdmitted s src →
    let a := s.a
    let m := sourceByte s src
    let r := (a.toNat + m.toNat) % 256
    exec (addInstr src) s = .next { s with
      a := BitVec.ofNat 8 r
      flags := { s.flags with
        v := decide (a.toInt + m.toInt < -128 ∨ 127 < a.toInt + m.toInt)
        h := decide (16 ≤ a.toNat % 16 + m.toNat % 16)
        n := decide (128 ≤ r)
        z := decide (r = 0)
        c := decide (256 ≤ a.toNat + m.toNat) }
      pc := BitVec.ofNat 24 (s.pc.toNat + (addInstr src).length) }

/-- 42_ld (PC by decision D8, the map D9, the immediate form D23; log 3, 17, 23): for each of the fifteen sources,
where the instruction fits and its source byte M may be read, LD A,src completes: A is M, N bit 7 of M, Z whether M
is zero; PC is past the instruction; nothing else changes. -/
def Obligations.LoadCompletes : Prop :=
  ∀ (src : Source) (s : State), s.hasRoom (ldInstr src).length → sourceAdmitted s src →
    let m := sourceByte s src
    exec (ldInstr src) s = .next { s with
      a := m
      flags := { s.flags with n := decide (128 ≤ m.toNat), z := decide (m.toNat = 0) }
      pc := BitVec.ofNat 24 (s.pc.toNat + (ldInstr src).length) }

/-- 45_sub (PC by decision D8, the map D9; log 3, 19, 23): for each of the fifteen sources, where the instruction
fits and its source byte M may be read, SUB A,src completes: A is the difference modulo 256; V signed overflow, N
bit 7 of the result, Z the result is zero, C the borrow; H and everything else but PC unchanged. -/
def Obligations.SubtractCompletes : Prop :=
  ∀ (src : Source) (s : State), s.hasRoom (subInstr src).length → sourceAdmitted s src →
    let a := s.a
    let m := sourceByte s src
    let r := (a.toNat + 256 - m.toNat) % 256
    exec (subInstr src) s = .next { s with
      a := BitVec.ofNat 8 r
      flags := { s.flags with
        v := decide (a.toInt - m.toInt < -128 ∨ 127 < a.toInt - m.toInt)
        n := decide (128 ≤ r)
        z := decide (r = 0)
        c := decide (a.toNat < m.toNat) }
      pc := BitVec.ofNat 24 (s.pc.toNat + (subInstr src).length) }

/-- 40_operands sections 1 and 2: the source byte is the immediate byte, or the byte in memory at the effective
address. -/
def Obligations.SourceByteIsOperandOrMemory : Prop :=
  ∀ (s : State), (∀ m, sourceByte s (.imm m) = m ∧ sourceAdmitted s (.imm m)) ∧
    (∀ f, sourceByte s (.mem f) = s.mem.read (effectiveAddress s f))

/-- 60_exceptions section 3, items 6 to 8, 20_memory section 4 (decisions D5, D9, D10; log 3, 8): how ADD, LD and
SUB A with a memory source are refused, the first failing check deciding: a pointer byte that may not be read; under
the cautious reading an address of 0x010000 or more; a data byte that may not be read. What may not be read is what
the map calls absent; a data byte in ROM, as in RAM, is read and the instruction completes. -/
def Obligations.SourceRefusals : Prop :=
  ∀ (f : MemForm) (s : State) (i : Instr),
    i = addInstr (.mem f) ∨ i = ldInstr (.mem f) ∨ i = subInstr (.mem f) → s.hasRoom i.length →
    (∀ p, pointerAddress f = some p → (readable s.cfg p = false ∨ readable s.cfg (p + 1) = false) →
      exec i s = .refused .readNotAdmitted) ∧
    ((∀ p, pointerAddress f = some p → readable s.cfg p = true ∧ readable s.cfg (p + 1) = true) →
      s.cfg.eaPolicy = .refuse → 0x10000 ≤ effectiveAddress s f → exec i s = .refused .eaCarry) ∧
    (addressAdmitted s f → readable s.cfg (effectiveAddress s f) = false →
      exec i s = .refused .readNotAdmitted) ∧
    (∀ addr, readable s.cfg addr = false ↔ kindAt s.cfg addr = .absent) ∧
    (addressAdmitted s f → kindAt s.cfg (effectiveAddress s f) = .rom ∨ kindAt s.cfg (effectiveAddress s f) = .ram →
      ∃ t, exec i s = .next t)

/-! ### Flag formulas -/

/-- R74: the Boolean formulas of ADD, bit by bit as printed, are the flags an ADD leaves; they equal the arithmetic
forms of the rule; and V is signed overflow. None depends on the old flags. -/
def Obligations.AddFlagFormulas : Prop :=
  ∀ (f : Flags) (a m : Byte),
    let r := a + m
    let A := fun k => a.getLsbD k
    let M := fun k => m.getLsbD k
    let R := fun k => r.getLsbD k
    let g := f.afterAdd a m
    let c6 := decide (128 ≤ a.toNat % 128 + m.toNat % 128)
    g.v = (((A 7 && M 7) || (M 7 && !R 7) || (!R 7 && A 7)) ^^ ((A 6 && M 6) || (M 6 && !R 6) || (!R 6 && A 6))) ∧
    g.h = ((A 3 && M 3) || (M 3 && !R 3) || (!R 3 && A 3)) ∧
    g.n = R 7 ∧
    g.z = (!R 7 && !R 6 && !R 5 && !R 4 && !R 3 && !R 2 && !R 1 && !R 0) ∧
    g.c = ((A 7 && M 7) || (M 7 && !R 7) || (!R 7 && A 7)) ∧
    g.c = decide (256 ≤ a.toNat + m.toNat) ∧
    g.h = decide (16 ≤ a.toNat % 16 + m.toNat % 16) ∧
    g.v = (g.c ^^ c6) ∧
    g.z = decide (r = 0) ∧
    g.v = decide (a.toInt + m.toInt < -128 ∨ 127 < a.toInt + m.toInt) ∧
    g.v = (A 7 == M 7 && R 7 != A 7) ∧
    g.i1 = f.i1 ∧ g.i0 = f.i0

/-- R86: the flags SUB A leaves are the borrow formulas b7 and b6 bit by bit; they equal the arithmetic forms of the
rule; and V is signed overflow. H is not written. -/
def Obligations.SubFlagFormulas : Prop :=
  ∀ (f : Flags) (a m : Byte),
    let r := a - m
    let A := fun k => a.getLsbD k
    let M := fun k => m.getLsbD k
    let R := fun k => r.getLsbD k
    let g := f.afterSub a m
    let b7 := (!A 7 && M 7) || (!A 7 && R 7) || (A 7 && M 7 && R 7)
    let b6 := (!A 6 && M 6) || (!A 6 && R 6) || (A 6 && M 6 && R 6)
    g.c = b7 ∧ g.v = (b7 ^^ b6) ∧ g.n = R 7 ∧ g.z = decide (r = 0) ∧
    g.c = decide (a.toNat < m.toNat) ∧
    b6 = decide (a.toNat % 128 < m.toNat % 128) ∧
    g.v = decide (a.toInt - m.toInt < -128 ∨ 127 < a.toInt - m.toInt) ∧
    g.v = (A 7 != M 7 && R 7 != A 7) ∧
    g.h = f.h ∧ g.i1 = f.i1 ∧ g.i0 = f.i0

/-- 45_sub, the arithmetic law (derived there): SUB of M against ADD of 256 - M: the same result, N and Z; C the
complement for M not 0 and both 0 for M = 0; V differs exactly when M = 0x80, where SUB has V = 1 exactly when bit 7
of A is 0 and ADD when it is 1. -/
def Obligations.SubIsNotAddOfNegation : Prop :=
  ∀ (f : Flags) (a m : Byte),
    let sub := f.afterSub a m
    let add := f.afterAdd a (-m)
    a - m = a + -m ∧ sub.n = add.n ∧ sub.z = add.z ∧
    (m ≠ 0 → sub.c = !add.c) ∧ (m = 0 → sub.c = false ∧ add.c = false) ∧
    (m ≠ 0x80 → sub.v = add.v) ∧ (m = 0x80 → sub.v = !a.getLsbD 7 ∧ add.v = a.getLsbD 7)

/-! ### The condition flags, flag by flag -/

/-- R17: V is written by ADD A,src and SUB A,src, set exactly when the signed operation overflows, and affected by
no other instruction. -/
def Obligations.OverflowFlagRule : Prop :=
  ∀ (i : Instr) (s t : State), exec i s = .next t →
    (∀ src, i = addInstr src → t.flags.v =
      decide (s.a.toInt + (sourceByte s src).toInt < -128 ∨ 127 < s.a.toInt + (sourceByte s src).toInt)) ∧
    (∀ src, i = subInstr src → t.flags.v =
      decide (s.a.toInt - (sourceByte s src).toInt < -128 ∨ 127 < s.a.toInt - (sourceByte s src).toInt)) ∧
    ((∀ src, i ≠ addInstr src ∧ i ≠ subInstr src) → t.flags.v = s.flags.v)

/-- R18: H is written by ADD A,src only, set exactly when a carry occurs from bit 3. -/
def Obligations.HalfCarryFlagRule : Prop :=
  ∀ (i : Instr) (s t : State), exec i s = .next t →
    (∀ src, i = addInstr src → t.flags.h =
      decide (16 ≤ s.a.toNat % 16 + (sourceByte s src).toNat % 16)) ∧
    ((∀ src, i ≠ addInstr src) → t.flags.h = s.flags.h)

/-- R19: N is bit 7 of the result of ADD, SUB A and LD, cleared by CLR A and CLR mem, and affected by neither JPF
nor SUB SP. -/
def Obligations.NegativeFlagRule : Prop :=
  ∀ (i : Instr) (s t : State), exec i s = .next t →
    (∀ src, i = addInstr src ∨ i = subInstr src ∨ i = ldInstr src → t.flags.n = decide (128 ≤ t.a.toNat)) ∧
    (i = .clrA ∨ (∃ f, i = clrInstr f) → t.flags.n = false) ∧
    ((∃ target, i = .jpfExtmem target) ∨ (∃ p, i = .jpfLongptr p) ∨ (∃ imm, i = .subSPByte imm) →
      t.flags.n = s.flags.n)

/-- R20: Z is set exactly when the result of ADD, SUB A or LD is zero, set by CLR A and CLR mem, and affected by
neither JPF nor SUB SP. -/
def Obligations.ZeroFlagRule : Prop :=
  ∀ (i : Instr) (s t : State), exec i s = .next t →
    (∀ src, i = addInstr src ∨ i = subInstr src ∨ i = ldInstr src → t.flags.z = decide (t.a.toNat = 0)) ∧
    (i = .clrA ∨ (∃ f, i = clrInstr f) → t.flags.z = true) ∧
    ((∃ target, i = .jpfExtmem target) ∨ (∃ p, i = .jpfLongptr p) ∨ (∃ imm, i = .subSPByte imm) →
      t.flags.z = s.flags.z)

/-- R21: C is the carry from bit 7 of ADD and the borrow of SUB A, 1 when A was below the source as unsigned bytes,
and affected by no other instruction. -/
def Obligations.CarryFlagRule : Prop :=
  ∀ (i : Instr) (s t : State), exec i s = .next t →
    (∀ src, i = addInstr src → t.flags.c = decide (256 ≤ s.a.toNat + (sourceByte s src).toNat)) ∧
    (∀ src, i = subInstr src → t.flags.c = decide (s.a.toNat < (sourceByte s src).toNat)) ∧
    ((∀ src, i ≠ addInstr src ∧ i ≠ subInstr src) → t.flags.c = s.flags.c)

/-! ### CLR -/

/-- 43_clr, CLR A (PC by decision D8; log 15, 23, 27): CLR A is the byte 4F, one cycle; where it fits it completes:
A is 0, N cleared, Z set, PC one further, and nothing else changed, V, I1, H, I0 and C among it (C9); where it does
not fit it is refused. As a step: at a PC in `CODE`, the byte 4F there does exactly that, and outside `CODE` it is
refused. -/
def Obligations.ClearACompletes : Prop :=
  encode .clrA = [0x4F] ∧ Instr.clrA.format = .op ∧ Instr.clrA.cycles = some 1 ∧
  ∀ (s : State),
    let t := { s with
      a := 0
      flags := { s.flags with n := false, z := true }
      pc := BitVec.ofNat 24 (s.pc.toNat + 1) }
    (s.hasRoom 1 → exec .clrA s = .next t) ∧
    (¬ s.hasRoom 1 → exec .clrA s = .refused .pcWrap) ∧
    (¬ s.final → s.mem.read s.pc.toNat = 0x4F →
      (inCode s.cfg s.pc.toNat = true → s.hasRoom 1 → step s = .next t) ∧
      (inCode s.cfg s.pc.toNat = true → ¬ s.hasRoom 1 → step s = .refused .pcWrap) ∧
      (inCode s.cfg s.pc.toNat = false → step s = .refused .fetchOutsideCode))

/-- 43_clr, CLR mem (decisions D8, D9, D12, D13, D15; log 3, 13, 16, 23): for each of the fourteen destinations,
where the instruction fits and the destination may be written, CLR mem completes: the byte at the address, computed
in the state before, is 0, every other byte as before, N cleared, Z set, PC past the instruction, nothing else
changed. The destination need not be readable, only writable. -/
def Obligations.ClearMemoryCompletes : Prop :=
  ∀ (f : MemForm) (s : State), s.hasRoom (clrInstr f).length → destAdmitted s f →
    ∃ t, exec (clrInstr f) s = .next t ∧
      t.mem.read (effectiveAddress s f) = 0 ∧
      (∀ addr, addr ≠ effectiveAddress s f → t.mem.read addr = s.mem.read addr) ∧
      t = { s with
        mem := t.mem
        flags := { s.flags with n := false, z := true }
        pc := BitVec.ofNat 24 (s.pc.toNat + (clrInstr f).length) }

/-- 60_exceptions section 3, items 6 to 8, 20_memory section 4 (decisions D5, D9, D10, D13; log 3, 8, 13): how CLR
mem is refused, the first failing check deciding: a pointer byte that may not be read; under the cautious reading an
address of 0x010000 or more; a destination in `CODE`; a destination the map does not admit for writing. What may not
be written is what the map calls ROM or absent, and what may not be read is what it calls absent. -/
def Obligations.ClearRefusals : Prop :=
  ∀ (f : MemForm) (s : State), s.hasRoom (clrInstr f).length →
    (∀ p, pointerAddress f = some p → (readable s.cfg p = false ∨ readable s.cfg (p + 1) = false) →
      exec (clrInstr f) s = .refused .readNotAdmitted) ∧
    ((∀ p, pointerAddress f = some p → readable s.cfg p = true ∧ readable s.cfg (p + 1) = true) →
      s.cfg.eaPolicy = .refuse → 0x10000 ≤ effectiveAddress s f → exec (clrInstr f) s = .refused .eaCarry) ∧
    (addressAdmitted s f → inCode s.cfg (effectiveAddress s f) = true →
      exec (clrInstr f) s = .refused .writeToCode) ∧
    (addressAdmitted s f → inCode s.cfg (effectiveAddress s f) = false →
      writable s.cfg (effectiveAddress s f) = false → exec (clrInstr f) s = .refused .writeNotAdmitted) ∧
    (∀ addr, writable s.cfg addr = false ↔ kindAt s.cfg addr = .rom ∨ kindAt s.cfg addr = .absent) ∧
    (∀ addr, readable s.cfg addr = false ↔ kindAt s.cfg addr = .absent)

/-- 70_reset_and_hazards section 4 (decisions D12, D18): each instruction sees the full effect of the one before it.
A load from the byte a CLR has just cleared reads 0: through any form whose address, after the CLR, is that byte's;
and through the CLR's own form wherever it has no pointer or the CLR did not clear a byte of its pointer, in which
case the form's address is what it was. -/
def Obligations.LoadAfterClearReadsZero : Prop :=
  ∀ (f : MemForm) (s t : State), exec (clrInstr f) s = .next t →
    (∀ g, t.hasRoom (ldInstr (.mem g)).length → addressAdmitted t g →
      effectiveAddress t g = effectiveAddress s f →
      ∃ u, exec (ldInstr (.mem g)) t = .next u ∧ u.a = 0 ∧ u.flags.z = true ∧ u.flags.n = false) ∧
    (t.hasRoom (ldInstr (.mem f)).length →
      (∀ p, pointerAddress f = some p → effectiveAddress s f ≠ p ∧ effectiveAddress s f ≠ p + 1) →
      effectiveAddress t f = effectiveAddress s f ∧
      ∃ u, exec (ldInstr (.mem f)) t = .next u ∧ u.a = 0 ∧ u.flags.z = true ∧ u.flags.n = false)

/-- 20_memory section 9 (decision D12) and 40_operands section 3 (D4, D25; log 7, 18): where a CLR through a pointer,
in any of its five forms, clears a byte of its own pointer, the whole pointer is read first. One whose address, the
pointer and the index in the state before, is the pointer's first byte clears that byte and leaves the second; one
whose address is the pointer's second byte clears that one and leaves the first. -/
def Obligations.ClearReadsPointerFirst : Prop :=
  ∀ (f : MemForm) (s : State) (p : Nat), pointerAddress f = some p → s.hasRoom (clrInstr f).length →
    destAdmitted s f →
    let first := s.mem.read p
    let second := s.mem.read (p + 1)
    let pointer :=
      match s.cfg.pointerOrder with
      | .msFirst => 0x100 * first.toNat + second.toNat
      | .lsFirst => first.toNat + 0x100 * second.toNat
    let index :=
      match f with
      | .shortptrX _ | .longptrX _ => s.x.toNat
      | .shortptrY _ => s.y.toNat
      | _ => 0
    (pointer + index = p →
      ∃ t, exec (clrInstr f) s = .next t ∧ t.mem.read p = 0 ∧ t.mem.read (p + 1) = second) ∧
    (pointer + index = p + 1 →
      ∃ t, exec (clrInstr f) s = .next t ∧ t.mem.read p = first ∧ t.mem.read (p + 1) = 0)

/-! ### JPF -/

/-- 44_jpf, JPF extmem (decisions D8, D13; log 13, 15): JPF extmem is AC ExtB MS LS, format OP_E, two cycles; where
it fits it completes with all 24 bits of the target in PC and nothing else changed, no data address having been
asked for; where it does not fit it is refused. As a step: it is fetched from `CODE`, or refused; and where its
target is outside `CODE` it is the next step's fetch that is refused, not the jump. -/
def Obligations.JumpFarCompletes : Prop :=
  (∀ e h l : Byte, encode (.jpfExtmem (e ++ h ++ l)) = [0xAC, e, h, l]) ∧
  ∀ (target : ExtAddr) (s : State),
    let t := { s with pc := target }
    (Instr.jpfExtmem target).format = .opE ∧ (Instr.jpfExtmem target).cycles = some 2 ∧
    (s.hasRoom 4 → exec (.jpfExtmem target) s = .next t) ∧
    (¬ s.hasRoom 4 → exec (.jpfExtmem target) s = .refused .pcWrap) ∧
    (¬ s.final → s.mem.readBytes s.pc.toNat 4 = encode (.jpfExtmem target) →
      (s.hasRoom 4 → (∀ k, k < 4 → inCode s.cfg (s.pc.toNat + k) = true) → step s = .next t) ∧
      (s.hasRoom 4 → (∃ k, k < 4 ∧ inCode s.cfg (s.pc.toNat + k) = false) →
        step s = .refused .fetchOutsideCode) ∧
      (¬ s.hasRoom 4 → inCode s.cfg s.pc.toNat = true → step s = .refused .pcWrap)) ∧
    (¬ t.final → inCode s.cfg target.toNat = false → step t = .refused .fetchOutsideCode)

/-- 44_jpf, JPF [longptr.e] (byte order D4, log 7; no wrap D6, log 10): JPF [longptr.e] is 92 AC MS LS, format
PRE_OP_W, six cycles; where it fits and its three pointer bytes at p, p+1 and p+2, without wrap, may be read, it
completes with PC made of them, most significant first (or least, where D4's configuration field says so), and
nothing else changed; otherwise it is refused. -/
def Obligations.JumpFarIndirectCompletes : Prop :=
  (∀ h l : Byte, encode (.jpfLongptr (h ++ l)) = [0x92, 0xAC, h, l]) ∧
  ∀ (ptr : Word) (s : State),
    let p := ptr.toNat
    (Instr.jpfLongptr ptr).format = .preOpW ∧ (Instr.jpfLongptr ptr).cycles = some 6 ∧
    (s.hasRoom 4 → readable s.cfg p = true → readable s.cfg (p + 1) = true → readable s.cfg (p + 2) = true →
      exec (.jpfLongptr ptr) s = .next { s with
        pc := match s.cfg.pointerOrder with
          | .msFirst => s.mem.read p ++ s.mem.read (p + 1) ++ s.mem.read (p + 2)
          | .lsFirst => s.mem.read (p + 2) ++ s.mem.read (p + 1) ++ s.mem.read p }) ∧
    (s.hasRoom 4 →
      (readable s.cfg p = false ∨ readable s.cfg (p + 1) = false ∨ readable s.cfg (p + 2) = false) →
      exec (.jpfLongptr ptr) s = .refused .readNotAdmitted) ∧
    (¬ s.hasRoom 4 → exec (.jpfLongptr ptr) s = .refused .pcWrap)

/-- 44_jpf, a corner case of JPF extmem (D13, D16; log 5, 13): a JPF extmem to its own address, in `CODE` and at no
stop address, is an endless loop of one instruction, which after any number of steps is in the state it began in. -/
def Obligations.JumpToSelfRunsForEver : Prop :=
  ∀ (s : State), ¬ s.final → s.hasRoom 4 → s.mem.readBytes s.pc.toNat 4 = encode (.jpfExtmem s.pc) →
    (∀ k, k < 4 → inCode s.cfg (s.pc.toNat + k) = true) → ∀ n, run n s = .next s

/-! ### SUB SP -/

/-- 45_sub, SUB SP,#byte (unsigned and wrap D19, log 9; width of SP D2): SUB SP,#byte is 52 XX, format OP_B, one
cycle; where it fits it completes with SP lowered by the unsigned byte modulo 2^16, PC two further, no flag and
nothing else changed. Only under the cautious reading is a byte above SP refused. -/
def Obligations.SubtractSPCompletes : Prop :=
  ∀ (imm : Byte) (s : State),
    encode (.subSPByte imm) = [0x52, imm] ∧ (Instr.subSPByte imm).format = .opB ∧
    (Instr.subSPByte imm).cycles = some 1 ∧
    (s.hasRoom 2 → s.cfg.spPolicy = .wrap ∨ imm.toNat ≤ s.sp.toNat →
      exec (.subSPByte imm) s = .next { s with
        sp := BitVec.ofNat 16 ((s.sp.toNat + 0x10000 - imm.toNat) % 0x10000)
        pc := BitVec.ofNat 24 (s.pc.toNat + 2) }) ∧
    (s.hasRoom 2 → s.cfg.spPolicy = .refuse → s.sp.toNat < imm.toNat →
      exec (.subSPByte imm) s = .refused .spWrap) ∧
    (¬ s.hasRoom 2 → exec (.subSPByte imm) s = .refused .pcWrap)

/-! ### Completion of all, and frames -/

/-- 30_encoding section 4, 60_exceptions section 1 (decisions D8, D9, D13): on a machine whose every address is RAM,
with the spec's default readings, every one of the 63 instructions completes wherever it fits, but for a CLR mem
whose destination is in `CODE`. -/
def Obligations.EveryInstructionCompletesOnPlainRam : Prop :=
  ∀ (i : Instr) (s : State), plainRam s.cfg → i.fitsAt s.pc = true →
    (∀ f, i = clrInstr f → inCode s.cfg (effectiveAddress s f) = false) → ∃ t, exec i s = .next t

/-- 10_state section 2 (decision D8; log 23): every instruction but JPF ends with PC at the byte after it, without
wrap. -/
def Obligations.PcAdvancesByLength : Prop :=
  ∀ (i : Instr) (s t : State), exec i s = .next t → (∀ target, i ≠ .jpfExtmem target) → (∀ p, i ≠ .jpfLongptr p) →
    t.pc.toNat = s.pc.toNat + i.length

/-- 10_state sections 1 and 3, 20_memory section 1: the frame of the instructions that write A. ADD, LD, SUB A
(every form) and CLR A leave X, Y, SP, I1, I0, the parameters and every byte of memory as they were; LD and CLR A
leave V, H and C, and SUB A leaves H. -/
def Obligations.FrameOfAccumulatorInstructions : Prop :=
  ∀ (src : Source) (i : Instr) (s t : State),
    i = addInstr src ∨ i = ldInstr src ∨ i = subInstr src ∨ i = .clrA → exec i s = .next t →
    t.x = s.x ∧ t.y = s.y ∧ t.sp = s.sp ∧ t.cfg = s.cfg ∧ t.flags.i1 = s.flags.i1 ∧ t.flags.i0 = s.flags.i0 ∧
    (∀ addr, t.mem.read addr = s.mem.read addr) ∧
    (i = ldInstr src ∨ i = .clrA →
      t.flags.v = s.flags.v ∧ t.flags.h = s.flags.h ∧ t.flags.c = s.flags.c) ∧
    (i = subInstr src → t.flags.h = s.flags.h)

/-- 43_clr, 10_state section 3: the frame of CLR mem, every form: A, X, Y, SP, V, I1, H, I0, C, the parameters, and
every byte of memory but the one at the form's effective address in the state before. -/
def Obligations.FrameOfClearMemory : Prop :=
  ∀ (f : MemForm) (s t : State), exec (clrInstr f) s = .next t →
    t.a = s.a ∧ t.x = s.x ∧ t.y = s.y ∧ t.sp = s.sp ∧ t.cfg = s.cfg ∧
    t.flags.v = s.flags.v ∧ t.flags.i1 = s.flags.i1 ∧ t.flags.h = s.flags.h ∧ t.flags.i0 = s.flags.i0 ∧
    t.flags.c = s.flags.c ∧
    ∀ addr, addr ≠ effectiveAddress s f → t.mem.read addr = s.mem.read addr

/-- 44_jpf, 45_sub, 10_state section 3: the frame of JPF (both forms) and SUB SP,#byte: A, X, Y, all seven flags,
the parameters and every byte of memory; JPF leaves SP too. -/
def Obligations.FrameOfJumpsAndSubtractSP : Prop :=
  ∀ (i : Instr) (s t : State),
    ((∃ target, i = .jpfExtmem target) ∨ (∃ p, i = .jpfLongptr p) ∨ ∃ imm, i = .subSPByte imm) →
    exec i s = .next t →
    t.a = s.a ∧ t.x = s.x ∧ t.y = s.y ∧ t.flags = s.flags ∧ t.cfg = s.cfg ∧
    (∀ addr, t.mem.read addr = s.mem.read addr) ∧ ((∀ imm, i ≠ .subSPByte imm) → t.sp = s.sp)

/-! ### The whole machine -/

/-- The model's own invariant (State.reset and a program's stores alike keep it): every step keeps memory in its
canonical form, so that equal memories are equal data. -/
def Obligations.StepKeepsMemoryCanonical : Prop :=
  ∀ (s t : State), s.mem.wf = true → step s = .next t → t.mem.wf = true

/-- 10_state sections 1 and 3, 00_scope section 4: over any run, from any state, X, Y and the parameters hold at the
end what they held at launch; so a legal configuration stays legal. -/
def Obligations.RunKeepsFixedState : Prop :=
  ∀ (n : Nat) (s t : State), run n s = .next t →
    t.x = s.x ∧ t.y = s.y ∧ t.cfg = s.cfg ∧ (configLegal s.cfg → configLegal t.cfg)

/-- 70_reset_and_hazards section 2, 20_memory sections 1 and 8 (decisions D11, D13; log 4, 13, 24): over any run
from a legal launch the configuration stays legal and memory canonical. At its end the state is again one a run may
be launched from, with PC in `CODE` or at a stop address, or PC has left `CODE` and the next step is refused for it. -/
def Obligations.LaunchedRunStaysLegal : Prop :=
  ∀ (n : Nat) (s t : State), s.launchable → run n s = .next t →
    configLegal t.cfg ∧ t.mem.wf = true ∧ (t.launchable ∨ step t = .refused .fetchOutsideCode)

/-- R22: every instruction leaves I1 and I0 unchanged, and none reads them. Over any run they hold their launch
values, and a run from other values of the two ends alike, in a state that differs in those two bits alone. -/
def Obligations.InterruptFlagsUntouched : Prop :=
  (∀ (i : Instr) (s t : State), exec i s = .next t → t.flags.i1 = s.flags.i1 ∧ t.flags.i0 = s.flags.i0) ∧
  ∀ (n : Nat) (s : State) (b1 b0 : Bool),
    let s' := { s with flags := { s.flags with i1 := b1, i0 := b0 } }
    (∀ t, run n s = .next t → t.flags.i1 = s.flags.i1 ∧ t.flags.i0 = s.flags.i0 ∧
      run n s' = .next { t with flags := { t.flags with i1 := b1, i0 := b0 } }) ∧
    (∀ e, run n s = .fault e → run n s' = .fault e) ∧ (∀ r, run n s = .refused r → run n s' = .refused r)

/-- 20_memory section 8 (decision D13; log 13): over any run the bytes of `CODE` never change. -/
def Obligations.RunKeepsCodeBytes : Prop :=
  ∀ (n : Nat) (s t : State), run n s = .next t →
    ∀ addr, inCode s.cfg addr = true → t.mem.read addr = s.mem.read addr

/-- 20_memory sections 1 and 4 (decisions D5, D9, D13; log 3, 8, 13): over any run each byte of memory is as it was
at launch, or it has been cleared: then it is 0, in RAM, outside `CODE`, and at or below 0x01FFFE. -/
def Obligations.RunOnlyClearsRam : Prop :=
  ∀ (n : Nat) (s t : State), run n s = .next t →
    ∀ addr, t.mem.read addr = s.mem.read addr ∨
      (t.mem.read addr = 0 ∧ kindAt s.cfg addr = .ram ∧ inCode s.cfg addr = false ∧ addr ≤ 0x01FFFE)

/-- R16: no instruction reads any flag, so that the flags are pure outputs. Each instruction has a fixed set of flags
it writes: from two states which differ in the flags alone it ends alike, in the same refusal, or in states that
agree but for the flags outside that set, each of which holds what it held before. A run ends alike too: in the same
fault, the same refusal, or states that agree but for flags which the run left at their launch values. -/
def Obligations.FlagsAreNeverRead : Prop :=
  (∀ i : Instr, ∃ written : Flags, ∀ (s : State) (f : Flags),
    (∀ t, exec i s = .next t →
      exec i { s with flags := f } = .next { t with flags := Flags.select written t.flags f }) ∧
    (∀ r, exec i s = .refused r → exec i { s with flags := f } = .refused r)) ∧
  ∀ (n : Nat) (s : State),
    (∀ t, run n s = .next t → ∃ written : Flags, ∀ f,
      run n { s with flags := f } = .next { t with flags := Flags.select written t.flags f }) ∧
    (∀ e, run n s = .fault e → ∀ f, run n { s with flags := f } = .fault e) ∧
    (∀ r, run n s = .refused r → ∀ f, run n { s with flags := f } = .refused r)

/-- R10: A is read by ADD and SUB A only, as the left operand, written by ADD, SUB A, LD and CLR A only, and used in
no address. With any value v in A, ADD leaves v + M and SUB A leaves v - M for the same source byte M, with the flags
of that sum or difference. Changing A alone changes nothing in an instruction's outcome but A and the flags, and for
an instruction other than ADD and SUB A not the flags, nor the A it leaves if it writes A; an instruction other than
those four leaves A as it was. -/
def Obligations.AccumulatorUse : Prop :=
  ∀ (i : Instr) (s : State) (v : Byte),
    (∀ t, exec i s = .next t → ∃ w g, exec i { s with a := v } = .next { t with a := w, flags := g } ∧
      (∀ src, i = addInstr src →
        w = v + sourceByte s src ∧ g = s.flags.afterAdd v (sourceByte s src)) ∧
      (∀ src, i = subInstr src →
        w = v - sourceByte s src ∧ g = s.flags.afterSub v (sourceByte s src)) ∧
      ((∀ src, i ≠ addInstr src ∧ i ≠ subInstr src) → g = t.flags) ∧
      ((∃ src, i = ldInstr src) ∨ i = .clrA → w = t.a) ∧
      ((∀ src, i ≠ addInstr src ∧ i ≠ subInstr src ∧ i ≠ ldInstr src) → i ≠ .clrA → t.a = s.a ∧ w = v)) ∧
    (∀ r, exec i s = .refused r → exec i { s with a := v } = .refused r)

/-- 95_test_vectors section 1.2, 30_encoding section 6 (log 25): assembler spellings of the source, one of each of
the eight instruction rules. -/
def Obligations.AssemblerSpellings : Prop :=
  asm (.addByte 0x55) = "ADD A,#$55" ∧ asm (.ldShortptrX 0x50) = "LD A,([$50.w],X)" ∧ asm .clrA = "CLR A" ∧
  asm (.clrLongptr 0x1000) = "CLR [$1000.w]" ∧ asm (.jpfExtmem 0x2FFFFC) = "JPF $2FFFFC" ∧
  asm (.jpfLongptr 0x2FFC) = "JPF [$2FFC.e]" ∧ asm (.subShortoffSP 0x10) = "SUB A,($10,SP)" ∧
  asm (.subSPByte 9) = "SUB SP,#$9"

/-! ### The memory map -/

/-- 20_memory section 4, the table of kinds (decision D9; log 3): RAM may be read and written, ROM read only, and what
is absent neither. An address beyond the 24-bit space is absent. The first region of the map that holds an address
gives its kind, and an address in none is absent. -/
def Obligations.MapKindsDecideAccess : Prop :=
  (∀ (c : Config) (addr : Nat),
    (kindAt c addr = .ram → readable c addr = true ∧ writable c addr = true) ∧
    (kindAt c addr = .rom → readable c addr = true ∧ writable c addr = false) ∧
    (kindAt c addr = .absent → readable c addr = false ∧ writable c addr = false) ∧
    (0xFFFFFF < addr → kindAt c addr = .absent)) ∧
  (∀ (c : Config) (g : Region) (rest : List Region) (addr : Nat), addr ≤ 0xFFFFFF →
    kindAt { c with map := [] } addr = .absent ∧
    (g.range.first ≤ addr ∧ addr ≤ g.range.last → kindAt { c with map := g :: rest } addr = g.kind) ∧
    (¬ (g.range.first ≤ addr ∧ addr ≤ g.range.last) →
      kindAt { c with map := g :: rest } addr = kindAt { c with map := rest } addr))
end

