-- ==== Sys2Proof/Laws/Decode.lean ====
section
/-! SUPPORT. The decoder: how operand bytes and values correspond, and what every row of the table has in common. -/

namespace Sys2Proof

/-- The value of a byte put after other bits. -/
theorem toNat_append_byte {n : Nat} (v : BitVec n) (b : Byte) : (v ++ b).toNat = 256 * v.toNat + b.toNat := by
  rw [BitVec.toNat_append, ← Nat.shiftLeft_add_eq_or_of_lt b.isLt, Nat.shiftLeft_eq]
  omega

theorem toNat_extract_byte {n : Nat} (v : BitVec n) (k : Nat) :
    (v.extractLsb' k 8).toNat = v.toNat / 2 ^ k % 256 := by
  rw [BitVec.extractLsb'_toNat, Nat.shiftRight_eq_div_pow]

/-- `MS LS` taken apart again (R28). -/
theorem wordOperand_append (ms ls : Byte) : wordOperand (ms ++ ls) = [ms, ls] := by
  have := ms.isLt
  have := ls.isLt
  simp only [wordOperand, List.cons.injEq, and_true]
  refine ⟨?_, ?_⟩ <;> apply BitVec.eq_of_toNat_eq <;> rw [toNat_extract_byte, toNat_append_byte] <;> omega

/-- A word is its `MS LS` put together. -/
theorem word_eq_append (v : Word) : v.extractLsb' 8 8 ++ v.extractLsb' 0 8 = v := by
  have := v.isLt
  apply BitVec.eq_of_toNat_eq
  rw [toNat_append_byte, toNat_extract_byte, toNat_extract_byte]
  omega

/-- `ExtB MS LS` taken apart again (R28). -/
theorem extOperand_append (extB ms ls : Byte) : extOperand (extB ++ ms ++ ls) = [extB, ms, ls] := by
  have := extB.isLt
  have := ms.isLt
  have := ls.isLt
  simp only [extOperand, List.cons.injEq, and_true]
  refine ⟨?_, ?_, ?_⟩ <;> apply BitVec.eq_of_toNat_eq <;>
    rw [toNat_extract_byte, toNat_append_byte, toNat_append_byte] <;> omega

/-- An extended address is its `ExtB MS LS` put together. -/
theorem ext_eq_append (v : ExtAddr) : v.extractLsb' 16 8 ++ v.extractLsb' 8 8 ++ v.extractLsb' 0 8 = v := by
  have := v.isLt
  apply BitVec.eq_of_toNat_eq
  rw [toNat_append_byte, toNat_append_byte, toNat_extract_byte, toNat_extract_byte, toNat_extract_byte]
  omega

/-- A row that is found is in the table, under the pair it was sought by (R43). -/
theorem findRow_mem {p : Option Byte} {o : Byte} {r : Row} (h : findRow p o = some r) :
    r ∈ opcodeTable ∧ r.precode = p ∧ r.opcode = o := by
  unfold findRow at h
  exact ⟨List.mem_of_find?_eq_some h, by simpa using List.find?_some h⟩

/-- The bytes a row begins with: its precode, if any, and its opcode (R40). -/
def Row.head (r : Row) : List Byte :=
  match r.precode with
  | none => [r.opcode]
  | some p => [p, r.opcode]

/-- What a shape takes off the front of a list of bytes: as many as the row has operand bytes, and the rest is left. -/
theorem assemble_ok {sh : Shape} {bytes rest : List Byte} {i : Instr} (h : sh.assemble bytes = .ok (i, rest)) :
    ∃ operands, bytes = operands ++ rest ∧ operands.length = sh.operandBytes ∧ sh.assemble operands = .ok (i, []) := by
  cases sh with
  | bare j =>
    simp only [Shape.assemble, Except.ok.injEq, Prod.mk.injEq] at h
    exact ⟨[], by simp [h.2], rfl, by simp [Shape.assemble, h.1]⟩
  | byte make =>
    rcases bytes with _ | ⟨x, t⟩ <;> simp only [Shape.assemble, Except.ok.injEq, Prod.mk.injEq, reduceCtorEq] at h
    exact ⟨[x], by simp [h.2], rfl, by simp [Shape.assemble, h.1]⟩
  | word make =>
    rcases bytes with _ | ⟨x, _ | ⟨y, t⟩⟩ <;>
      simp only [Shape.assemble, Except.ok.injEq, Prod.mk.injEq, reduceCtorEq] at h
    exact ⟨[x, y], by simp [h.2], rfl, by simp [Shape.assemble, h.1]⟩
  | ext make =>
    rcases bytes with _ | ⟨x, _ | ⟨y, _ | ⟨z, t⟩⟩⟩ <;>
      simp only [Shape.assemble, Except.ok.injEq, Prod.mk.injEq, reduceCtorEq] at h
    exact ⟨[x, y, z], by simp [h.2], rfl, by simp [Shape.assemble, h.1]⟩

/-- Enough bytes always make an instruction of the shape. -/
theorem assemble_of_length (sh : Shape) (bytes : List Byte) (h : sh.operandBytes ≤ bytes.length) :
    ∃ i, sh.assemble bytes = .ok (i, bytes.drop sh.operandBytes) := by
  cases sh with
  | bare i => exact ⟨i, rfl⟩
  | byte make => rcases bytes with _ | ⟨x, t⟩ <;> simp_all [Shape.operandBytes, Shape.assemble]
  | word make => rcases bytes with _ | ⟨x, _ | ⟨y, t⟩⟩ <;> simp_all [Shape.operandBytes, Shape.assemble]
  | ext make => rcases bytes with _ | ⟨x, _ | ⟨y, _ | ⟨z, t⟩⟩⟩ <;> simp_all [Shape.operandBytes, Shape.assemble]

/-- How the encoder writes the instructions of a row: the row's head, then the operand value's bytes. -/
def Row.encodes (r : Row) : Prop :=
  match r.shape with
  | .bare i => encode i = r.head ∧ i.length = r.length
  | .byte make => ∀ v, encode (make v) = r.head ++ byteOperand v ∧ (make v).length = r.length
  | .word make => ∀ v, encode (make v) = r.head ++ wordOperand v ∧ (make v).length = r.length
  | .ext make => ∀ v, encode (make v) = r.head ++ extOperand v ∧ (make v).length = r.length

/-- The encoder and the table agree on every row. -/
theorem encodes_of_mem : ∀ r ∈ opcodeTable, r.encodes := by
  intro r hr
  simp only [opcodeTable, addRows, ldRows, clrRows, jpfRows, subRows, List.cons_append, List.nil_append,
    List.mem_cons, List.not_mem_nil, or_false] at hr
  repeat' (rcases hr with rfl | hr)
  all_goals first
    | exact ⟨rfl, rfl⟩
    | exact fun _ => ⟨rfl, rfl⟩

/-- What decoding the operand bytes of a row of the table gives: the row's instruction, whose encoding is the row's head
and those bytes. -/
theorem decodeRow_ok {row : Option Row} {bytes rest : List Byte} {i : Instr}
    (h : decodeRow row bytes = .ok (i, rest)) (mem : ∀ r, row = some r → r ∈ opcodeTable) :
    ∃ r, row = some r ∧ r.head ++ bytes = encode i ++ rest ∧ i.length = r.length := by
  rcases row with _ | r
  · cases h
  have he := encodes_of_mem r (mem r rfl)
  obtain ⟨ops, rfl, hn, ha⟩ := assemble_ok h
  refine ⟨r, rfl, ?_⟩
  unfold Row.encodes at he
  cases hs : r.shape with
  | bare j =>
    simp only [hs, Shape.operandBytes, List.length_eq_zero_iff] at hn he ha
    subst hn
    cases ha
    simp [he]
  | byte make =>
    simp only [hs, Shape.operandBytes] at hn he ha
    obtain ⟨x, rfl⟩ := List.length_eq_one_iff.1 hn
    cases ha
    simp [he, byteOperand]
  | word make =>
    simp only [hs, Shape.operandBytes] at hn he ha
    obtain ⟨x, y, rfl⟩ := List.length_eq_two.1 hn
    cases ha
    simp [he, wordOperand_append]
  | ext make =>
    simp only [hs, Shape.operandBytes] at hn he ha
    obtain ⟨x, y, z, rfl⟩ := List.length_eq_three.1 hn
    cases ha
    simp [he, extOperand_append]

end Sys2Proof
end

