-- ==== Sys2Proof/Laws/Memory.lean ====
section
/-! SUPPORT. Memory: reading what was written, leaving every other address alone, and keeping the canonical form. -/

namespace Sys2Proof.Machine

@[simp] theorem Memory.read_nil (addr : Nat) : Memory.read [] addr = Memory.blank := rfl

theorem Memory.read_cons (b : Nat) (v : Byte) (m : Memory) (addr : Nat) :
    Memory.read ((b, v) :: m) addr = if b = addr then v else m.read addr := rfl

theorem Memory.erase_cons (b : Nat) (v : Byte) (m : Memory) (addr : Nat) :
    Memory.erase ((b, v) :: m) addr = if b = addr then m.erase addr else (b, v) :: m.erase addr := by
  by_cases h : b = addr <;> simp [Memory.erase, h]

theorem Memory.read_erase (m : Memory) (addr b : Nat) :
    (m.erase addr).read b = if b = addr then Memory.blank else m.read b := by
  induction m with
  | nil => simp [Memory.erase]
  | cons cell m ih =>
    obtain ⟨c, v⟩ := cell
    rw [Memory.erase_cons, Memory.read_cons]
    split <;> rename_i h
    · rw [ih]; split <;> rename_i h' <;> [rfl; rw [if_neg (by omega)]]
    · rw [Memory.read_cons, ih]; split <;> split <;> simp_all

theorem Memory.read_insert_same (m : Memory) (addr : Nat) (v : Byte) :
    ((m.erase addr).insert addr v).read addr = v := by
  induction m with
  | nil => simp [Memory.erase, Memory.insert, Memory.read_cons]
  | cons cell m ih =>
    obtain ⟨c, w⟩ := cell
    rw [Memory.erase_cons]
    split <;> rename_i h
    · exact ih
    · simp only [Memory.insert]
      split <;> simp [Memory.read_cons, h, ih]

theorem Memory.read_insert_other (m : Memory) {addr b : Nat} (v : Byte) (h : b ≠ addr) :
    (m.insert addr v).read b = m.read b := by
  induction m with
  | nil => simp [Memory.insert, Memory.read_cons, Ne.symm h]
  | cons cell m ih =>
    obtain ⟨c, w⟩ := cell
    simp only [Memory.insert]
    split <;> simp [Memory.read_cons, Ne.symm h, ih]

/-- A read after a write to the same place gives the value written (R33, R37). -/
theorem Memory.read_write_same (m : Memory) {addr : Nat} (v : Byte) (h : addr ≤ topAddress) :
    (m.write addr v).read addr = v := by
  unfold Memory.write
  rw [if_pos h]
  split <;> rename_i hv
  · rw [Memory.read_erase, if_pos rfl, hv]
  · exact Memory.read_insert_same m addr v

/-- A write leaves every other place alone (R33). -/
theorem Memory.read_write_other (m : Memory) {addr b : Nat} (v : Byte) (h : b ≠ addr) :
    (m.write addr v).read b = m.read b := by
  unfold Memory.write
  split
  · split
    · rw [Memory.read_erase, if_neg h]
    · rw [Memory.read_insert_other _ _ h, Memory.read_erase, if_neg h]
  · rfl

theorem Memory.wfFrom_cons (low b : Nat) (v : Byte) (m : Memory) :
    Memory.wfFrom low ((b, v) :: m) = true ↔
      low ≤ b ∧ b ≤ topAddress ∧ v ≠ Memory.blank ∧ Memory.wfFrom (b + 1) m = true := by
  simp [Memory.wfFrom, and_assoc]

theorem Memory.wfFrom_mono {low low' : Nat} (m : Memory) (h : low ≤ low') (hm : Memory.wfFrom low' m = true) :
    Memory.wfFrom low m = true := by
  cases m with
  | nil => rfl
  | cons cell m =>
    obtain ⟨c, v⟩ := cell
    rw [Memory.wfFrom_cons] at hm ⊢
    exact ⟨by omega, hm.2⟩

theorem Memory.wfFrom_erase (m : Memory) (low addr : Nat) (hm : Memory.wfFrom low m = true) :
    Memory.wfFrom low (m.erase addr) = true := by
  induction m generalizing low with
  | nil => rfl
  | cons cell m ih =>
    obtain ⟨c, v⟩ := cell
    rw [Memory.wfFrom_cons] at hm
    obtain ⟨h1, h2, h3, h4⟩ := hm
    rw [Memory.erase_cons]
    split
    · exact Memory.wfFrom_mono _ (by omega) (ih _ h4)
    · rw [Memory.wfFrom_cons]; exact ⟨h1, h2, h3, ih _ h4⟩

theorem Memory.wfFrom_insert (m : Memory) (low addr : Nat) (v : Byte) (hlow : low ≤ addr) (htop : addr ≤ topAddress)
    (hv : v ≠ Memory.blank) (hm : Memory.wfFrom low (m.erase addr) = true) :
    Memory.wfFrom low ((m.erase addr).insert addr v) = true := by
  induction m generalizing low with
  | nil => exact (Memory.wfFrom_cons _ _ _ _).2 ⟨hlow, htop, hv, rfl⟩
  | cons cell m ih =>
    obtain ⟨c, w⟩ := cell
    rw [Memory.erase_cons] at hm ⊢
    split <;> rename_i h
    · rw [if_pos h] at hm; exact ih _ hlow hm
    · rw [if_neg h, Memory.wfFrom_cons] at hm
      obtain ⟨h1, h2, h3, h4⟩ := hm
      simp only [Memory.insert]
      split
      · rw [Memory.wfFrom_cons, Memory.wfFrom_cons]
        exact ⟨hlow, htop, hv, by omega, h2, h3, h4⟩
      · rw [Memory.wfFrom_cons]
        exact ⟨h1, h2, h3, ih _ (by omega) h4⟩

/-- A write keeps the canonical form. -/
theorem Memory.wf_write (m : Memory) (addr : Nat) (v : Byte) (h : m.wf = true) : (m.write addr v).wf = true := by
  unfold Memory.write
  split <;> rename_i htop
  · split <;> rename_i hv
    · exact Memory.wfFrom_erase _ _ _ h
    · exact Memory.wfFrom_insert _ _ _ _ (Nat.zero_le _) htop hv (Memory.wfFrom_erase _ _ _ h)
  · exact h

/-- Storing a list of bytes keeps the canonical form. -/
theorem Memory.wf_writeBytes (bytes : List Byte) (m : Memory) (addr : Nat) (h : m.wf = true) :
    (m.writeBytes addr bytes).wf = true := by
  induction bytes generalizing m addr with
  | nil => exact h
  | cons v bytes ih => exact ih _ _ (Memory.wf_write _ _ _ h)

theorem Memory.wf_nil : Memory.wf [] = true := rfl

/-- A cell of a canonical list at or above `low` is the only one for its address: nothing below `low` is listed. -/
theorem Memory.read_below (m : Memory) {low addr : Nat} (hm : Memory.wfFrom low m = true) (h : addr < low) :
    m.read addr = Memory.blank := by
  induction m generalizing low with
  | nil => rfl
  | cons cell m ih =>
    obtain ⟨c, v⟩ := cell
    rw [Memory.wfFrom_cons] at hm
    rw [Memory.read_cons, if_neg (by omega)]
    exact ih hm.2.2.2 (by omega)

theorem Memory.length_readBytes (m : Memory) (addr n : Nat) : (m.readBytes addr n).length = n := by
  induction n generalizing addr with
  | zero => rfl
  | succ n ih => simp [Memory.readBytes, ih]

end Sys2Proof.Machine
end

