-- ==== Sys2Proof/Laws/Ops.lean ====
section
/-! SUPPORT. What each shared operation can do, said once: `answer`, the lists of checks, the addresses. -/

namespace Sys2Proof.Machine

/-! ### answer -/

theorem firstRefusal_append (xs ys : List Check) :
    firstRefusal (xs ++ ys) = (firstRefusal xs).or (firstRefusal ys) := by
  induction xs with
  | nil => simp [firstRefusal]
  | cons c xs ih => simp only [List.cons_append, firstRefusal]; split <;> simp [ih]

/-- No refusal is answered exactly when every check holds. -/
theorem firstRefusal_eq_none (cs : List Check) : firstRefusal cs = none ↔ ∀ c ∈ cs, c.ok = true := by
  induction cs with
  | nil => simp [firstRefusal]
  | cons c cs ih => cases h : c.ok <;> simp [firstRefusal, h, ih]

/-- A refusal that is answered is that of a check which fails. -/
theorem firstRefusal_eq_some {cs : List Check} {r : Refusal} (h : firstRefusal cs = some r) :
    ∃ c ∈ cs, c.ok = false ∧ c.refusal = r := by
  induction cs with
  | nil => cases h
  | cons c cs ih =>
    simp only [firstRefusal] at h
    split at h <;> rename_i hc
    · obtain ⟨d, hd, h⟩ := ih h
      exact ⟨d, List.mem_cons_of_mem _ hd, h⟩
    · exact ⟨c, List.mem_cons_self, by simpa using hc, by simpa using h⟩

/-- A check that holds is passed over. -/
theorem firstRefusal_cons_ok {c : Check} {cs : List Check} (h : c.ok = true) :
    firstRefusal (c :: cs) = firstRefusal cs := by simp [firstRefusal, h]

/-- A check that fails decides. -/
theorem firstRefusal_cons_fail {c : Check} {cs : List Check} (h : c.ok = false) :
    firstRefusal (c :: cs) = some c.refusal := by simp [firstRefusal, h]

/-- `answer` gives a next state exactly when every check holds, and then the state offered. -/
theorem answer_next (cs : List Check) (t u : State) :
    answer cs t = .next u ↔ (∀ c ∈ cs, c.ok = true) ∧ u = t := by
  rw [← firstRefusal_eq_none]
  unfold answer
  cases firstRefusal cs <;> simp [eq_comm]

/-- `answer` refuses exactly when some check fails, with the refusal of the first that does. -/
theorem answer_refused (cs : List Check) (t : State) (r : Refusal) :
    answer cs t = .refused r ↔ firstRefusal cs = some r := by
  unfold answer
  cases firstRefusal cs <;> simp

/-- `answer` never gives a fault. -/
theorem answer_ne_fault (cs : List Check) (t : State) (e : Fault) : answer cs t ≠ .fault e := by
  unfold answer
  cases firstRefusal cs <;> simp

/-! ### The checks, as propositions -/

@[simp] theorem roomCheck_ok (s : State) (len : Nat) : (roomCheck s len).ok = true ↔ s.hasRoom len := by
  simp [roomCheck, State.hasRoom]

@[simp] theorem readCheck_ok (s : State) (addr : Nat) : (readCheck s addr).ok = readable s.cfg addr := rfl

@[simp] theorem fetchCheck_ok (s : State) (addr : Nat) : (fetchCheck s addr).ok = inCode s.cfg addr := rfl

@[simp] theorem carryCheck_ok (s : State) (f : MemForm) :
    (carryCheck s f).ok = true ↔ s.cfg.eaPolicy = .carry ∨ effectiveAddress s f < 0x10000 := by
  simp [carryCheck]

/-- Without room an instruction answers PcWrap, whatever its other checks. -/
theorem answer_no_room (s : State) (len : Nat) (cs : List Check) (t : State) (h : ¬ s.hasRoom len) :
    answer (roomCheck s len :: cs) t = .refused .pcWrap := by
  rw [answer_refused, firstRefusal, if_neg (by rwa [roomCheck_ok])]
  rfl

/-- With room the other checks decide. -/
theorem answer_room (s : State) (len : Nat) (cs : List Check) (t : State) (h : s.hasRoom len) :
    answer (roomCheck s len :: cs) t = answer cs t := by
  simp only [answer, firstRefusal_cons_ok ((roomCheck_ok s len).2 h)]

theorem pointerChecks_ok (s : State) (f : MemForm) :
    (∀ c ∈ pointerChecks s f, c.ok = true) ↔
      ∀ p, pointerAddress f = some p → readable s.cfg p = true ∧ readable s.cfg (p + 1) = true := by
  unfold pointerChecks
  cases pointerAddress f <;> simp

/-- The checks of a form's address hold exactly when the address is admitted. -/
theorem addressChecks_ok (s : State) (f : MemForm) :
    (∀ c ∈ addressChecks s f, c.ok = true) ↔ addressAdmitted s f := by
  simp only [addressChecks, List.mem_append, or_imp, forall_and, pointerChecks_ok, addressAdmitted,
    List.mem_singleton, forall_eq, carryCheck_ok]

/-- The checks of a source hold exactly when the source is admitted. -/
theorem sourceChecks_ok (s : State) (src : Source) :
    (∀ c ∈ sourceChecks s src, c.ok = true) ↔ sourceAdmitted s src := by
  cases src with
  | imm m => simp [sourceChecks, sourceAdmitted]
  | mem f =>
    simp only [sourceChecks, List.mem_append, or_imp, forall_and, addressChecks_ok, sourceAdmitted,
      List.mem_singleton, forall_eq, readCheck_ok]

/-- The checks of a destination hold exactly when the destination is admitted. -/
theorem destChecks_ok (s : State) (f : MemForm) :
    (∀ c ∈ destChecks s f, c.ok = true) ↔ destAdmitted s f := by
  simp only [destChecks, List.mem_append, or_imp, forall_and, addressChecks_ok, destAdmitted]
  simp [writeChecks]

/-! ### Addresses -/

/-- No operand form uses A or a flag (R10, R16): its address, byte and checks are the same with others. -/
theorem effectiveAddress_withAFlags (s : State) (v : Byte) (g : Flags) (f : MemForm) :
    effectiveAddress { s with a := v, flags := g } f = effectiveAddress s f := by
  cases f <;> rfl

theorem sourceByte_withAFlags (s : State) (v : Byte) (g : Flags) (src : Source) :
    sourceByte { s with a := v, flags := g } src = sourceByte s src := by
  cases src with
  | imm m => rfl
  | mem f => simp only [sourceByte, effectiveAddress_withAFlags]

theorem sourceChecks_withAFlags (s : State) (v : Byte) (g : Flags) (src : Source) :
    sourceChecks { s with a := v, flags := g } src = sourceChecks s src := by
  cases src with
  | imm m => rfl
  | mem f =>
    simp only [sourceChecks, addressChecks, carryCheck, effectiveAddress_withAFlags]
    rfl

theorem destChecks_withAFlags (s : State) (v : Byte) (g : Flags) (f : MemForm) :
    destChecks { s with a := v, flags := g } f = destChecks s f := by
  simp only [destChecks, addressChecks, carryCheck, effectiveAddress_withAFlags]
  rfl

/-- An effective address lies in the 24-bit space (R56). -/
theorem effectiveAddress_le_top (s : State) (f : MemForm) : effectiveAddress s f ≤ topAddress := by
  have hx := s.x.isLt
  have hy := s.y.isLt
  have hsp := s.sp.isLt
  cases f <;> simp only [effectiveAddress, topAddress] <;>
    first
    | (rename_i v; have hv := v.isLt; have hp := (pointerWord s v.toNat).isLt; omega)
    | omega

/-- What may not be read is what the map calls absent (R34). -/
theorem readable_eq_false (c : Config) (addr : Nat) : readable c addr = false ↔ kindAt c addr = .absent := by
  simp [readable]

/-- What may not be written is what the map calls ROM or absent (R34). -/
theorem writable_eq_false (c : Config) (addr : Nat) :
    writable c addr = false ↔ kindAt c addr = .rom ∨ kindAt c addr = .absent := by
  cases h : kindAt c addr <;> simp [writable, h]

/-- What may be read, or written, lies in the address space. -/
theorem readable_le_top {c : Config} {addr : Nat} (h : readable c addr = true) : addr ≤ topAddress := by
  by_contra hn
  simp [readable, kindAt, hn] at h

theorem writable_le_top {c : Config} {addr : Nat} (h : writable c addr = true) : addr ≤ topAddress := by
  by_contra hn
  simp [writable, kindAt, hn] at h

end Sys2Proof.Machine
end

