-- ==== Sys2Proof/Laws/State.lean ====
section
/-! SUPPORT. One lemma per field per update of the state, and per flag per flag computation, so that no later proof
unfolds a record update. -/

namespace Sys2Proof.Machine

variable (s : State)

@[simp] theorem State.withA_a (v : Byte) : (s.withA v).a = v := rfl
@[simp] theorem State.withA_x (v : Byte) : (s.withA v).x = s.x := rfl
@[simp] theorem State.withA_y (v : Byte) : (s.withA v).y = s.y := rfl
@[simp] theorem State.withA_sp (v : Byte) : (s.withA v).sp = s.sp := rfl
@[simp] theorem State.withA_pc (v : Byte) : (s.withA v).pc = s.pc := rfl
@[simp] theorem State.withA_flags (v : Byte) : (s.withA v).flags = s.flags := rfl
@[simp] theorem State.withA_mem (v : Byte) : (s.withA v).mem = s.mem := rfl
@[simp] theorem State.withA_cfg (v : Byte) : (s.withA v).cfg = s.cfg := rfl

@[simp] theorem State.withSP_a (v : Word) : (s.withSP v).a = s.a := rfl
@[simp] theorem State.withSP_x (v : Word) : (s.withSP v).x = s.x := rfl
@[simp] theorem State.withSP_y (v : Word) : (s.withSP v).y = s.y := rfl
@[simp] theorem State.withSP_sp (v : Word) : (s.withSP v).sp = v := rfl
@[simp] theorem State.withSP_pc (v : Word) : (s.withSP v).pc = s.pc := rfl
@[simp] theorem State.withSP_flags (v : Word) : (s.withSP v).flags = s.flags := rfl
@[simp] theorem State.withSP_mem (v : Word) : (s.withSP v).mem = s.mem := rfl
@[simp] theorem State.withSP_cfg (v : Word) : (s.withSP v).cfg = s.cfg := rfl

@[simp] theorem State.withPC_a (v : ExtAddr) : (s.withPC v).a = s.a := rfl
@[simp] theorem State.withPC_x (v : ExtAddr) : (s.withPC v).x = s.x := rfl
@[simp] theorem State.withPC_y (v : ExtAddr) : (s.withPC v).y = s.y := rfl
@[simp] theorem State.withPC_sp (v : ExtAddr) : (s.withPC v).sp = s.sp := rfl
@[simp] theorem State.withPC_pc (v : ExtAddr) : (s.withPC v).pc = v := rfl
@[simp] theorem State.withPC_flags (v : ExtAddr) : (s.withPC v).flags = s.flags := rfl
@[simp] theorem State.withPC_mem (v : ExtAddr) : (s.withPC v).mem = s.mem := rfl
@[simp] theorem State.withPC_cfg (v : ExtAddr) : (s.withPC v).cfg = s.cfg := rfl

@[simp] theorem State.withFlags_a (f : Flags) : (s.withFlags f).a = s.a := rfl
@[simp] theorem State.withFlags_x (f : Flags) : (s.withFlags f).x = s.x := rfl
@[simp] theorem State.withFlags_y (f : Flags) : (s.withFlags f).y = s.y := rfl
@[simp] theorem State.withFlags_sp (f : Flags) : (s.withFlags f).sp = s.sp := rfl
@[simp] theorem State.withFlags_pc (f : Flags) : (s.withFlags f).pc = s.pc := rfl
@[simp] theorem State.withFlags_flags (f : Flags) : (s.withFlags f).flags = f := rfl
@[simp] theorem State.withFlags_mem (f : Flags) : (s.withFlags f).mem = s.mem := rfl
@[simp] theorem State.withFlags_cfg (f : Flags) : (s.withFlags f).cfg = s.cfg := rfl

@[simp] theorem State.withByte_a (addr : Nat) (v : Byte) : (s.withByte addr v).a = s.a := rfl
@[simp] theorem State.withByte_x (addr : Nat) (v : Byte) : (s.withByte addr v).x = s.x := rfl
@[simp] theorem State.withByte_y (addr : Nat) (v : Byte) : (s.withByte addr v).y = s.y := rfl
@[simp] theorem State.withByte_sp (addr : Nat) (v : Byte) : (s.withByte addr v).sp = s.sp := rfl
@[simp] theorem State.withByte_pc (addr : Nat) (v : Byte) : (s.withByte addr v).pc = s.pc := rfl
@[simp] theorem State.withByte_flags (addr : Nat) (v : Byte) : (s.withByte addr v).flags = s.flags := rfl
@[simp] theorem State.withByte_mem (addr : Nat) (v : Byte) : (s.withByte addr v).mem = s.mem.write addr v := rfl
@[simp] theorem State.withByte_cfg (addr : Nat) (v : Byte) : (s.withByte addr v).cfg = s.cfg := rfl

@[simp] theorem State.advance_a (len : Nat) : (s.advance len).a = s.a := rfl
@[simp] theorem State.advance_x (len : Nat) : (s.advance len).x = s.x := rfl
@[simp] theorem State.advance_y (len : Nat) : (s.advance len).y = s.y := rfl
@[simp] theorem State.advance_sp (len : Nat) : (s.advance len).sp = s.sp := rfl
@[simp] theorem State.advance_pc (len : Nat) : (s.advance len).pc = s.pc + BitVec.ofNat 24 len := rfl
@[simp] theorem State.advance_flags (len : Nat) : (s.advance len).flags = s.flags := rfl
@[simp] theorem State.advance_mem (len : Nat) : (s.advance len).mem = s.mem := rfl
@[simp] theorem State.advance_cfg (len : Nat) : (s.advance len).cfg = s.cfg := rfl

variable (f : Flags)

@[simp] theorem Flags.afterAdd_v (a m : Byte) : (f.afterAdd a m).v = (carryOut 7 a m (a + m) ^^ carryOut 6 a m (a + m)) := rfl
@[simp] theorem Flags.afterAdd_i1 (a m : Byte) : (f.afterAdd a m).i1 = f.i1 := rfl
@[simp] theorem Flags.afterAdd_h (a m : Byte) : (f.afterAdd a m).h = carryOut 3 a m (a + m) := rfl
@[simp] theorem Flags.afterAdd_i0 (a m : Byte) : (f.afterAdd a m).i0 = f.i0 := rfl
@[simp] theorem Flags.afterAdd_n (a m : Byte) : (f.afterAdd a m).n = negative (a + m) := rfl
@[simp] theorem Flags.afterAdd_z (a m : Byte) : (f.afterAdd a m).z = isZero (a + m) := rfl
@[simp] theorem Flags.afterAdd_c (a m : Byte) : (f.afterAdd a m).c = carryOut 7 a m (a + m) := rfl

@[simp] theorem Flags.afterSub_v (a m : Byte) : (f.afterSub a m).v = (borrowOut 7 a m (a - m) ^^ borrowOut 6 a m (a - m)) := rfl
@[simp] theorem Flags.afterSub_i1 (a m : Byte) : (f.afterSub a m).i1 = f.i1 := rfl
@[simp] theorem Flags.afterSub_h (a m : Byte) : (f.afterSub a m).h = f.h := rfl
@[simp] theorem Flags.afterSub_i0 (a m : Byte) : (f.afterSub a m).i0 = f.i0 := rfl
@[simp] theorem Flags.afterSub_n (a m : Byte) : (f.afterSub a m).n = negative (a - m) := rfl
@[simp] theorem Flags.afterSub_z (a m : Byte) : (f.afterSub a m).z = isZero (a - m) := rfl
@[simp] theorem Flags.afterSub_c (a m : Byte) : (f.afterSub a m).c = borrowOut 7 a m (a - m) := rfl

@[simp] theorem Flags.afterLoad_v (m : Byte) : (f.afterLoad m).v = f.v := rfl
@[simp] theorem Flags.afterLoad_i1 (m : Byte) : (f.afterLoad m).i1 = f.i1 := rfl
@[simp] theorem Flags.afterLoad_h (m : Byte) : (f.afterLoad m).h = f.h := rfl
@[simp] theorem Flags.afterLoad_i0 (m : Byte) : (f.afterLoad m).i0 = f.i0 := rfl
@[simp] theorem Flags.afterLoad_n (m : Byte) : (f.afterLoad m).n = negative m := rfl
@[simp] theorem Flags.afterLoad_z (m : Byte) : (f.afterLoad m).z = isZero m := rfl
@[simp] theorem Flags.afterLoad_c (m : Byte) : (f.afterLoad m).c = f.c := rfl

@[simp] theorem Flags.afterClear_v : (f.afterClear).v = f.v := rfl
@[simp] theorem Flags.afterClear_i1 : (f.afterClear).i1 = f.i1 := rfl
@[simp] theorem Flags.afterClear_h : (f.afterClear).h = f.h := rfl
@[simp] theorem Flags.afterClear_i0 : (f.afterClear).i0 = f.i0 := rfl
@[simp] theorem Flags.afterClear_n : (f.afterClear).n = false := rfl
@[simp] theorem Flags.afterClear_z : (f.afterClear).z = true := rfl
@[simp] theorem Flags.afterClear_c : (f.afterClear).c = f.c := rfl

end Sys2Proof.Machine
end

