-- ==== Sys2Proof/Laws/Exec.lean ====
section
/-! SUPPORT. What an instruction can do, said once per shared meaning, then for `exec` and `step` as a whole: every
invariant is a case analysis over `exec_next_cases`. -/

namespace Sys2Proof.Machine

/-! ### The state each meaning offers -/

def addResult (s : State) (src : Source) (len : Nat) : State :=
  ((s.withA (s.a + sourceByte s src)).withFlags (s.flags.afterAdd s.a (sourceByte s src))).advance len

def ldResult (s : State) (src : Source) (len : Nat) : State :=
  ((s.withA (sourceByte s src)).withFlags (s.flags.afterLoad (sourceByte s src))).advance len

def subResult (s : State) (src : Source) (len : Nat) : State :=
  ((s.withA (s.a - sourceByte s src)).withFlags (s.flags.afterSub s.a (sourceByte s src))).advance len

def clrAResult (s : State) : State := ((s.withA 0).withFlags s.flags.afterClear).advance 1

def clrResult (s : State) (f : MemForm) (len : Nat) : State :=
  ((s.withByte (effectiveAddress s f) 0).withFlags s.flags.afterClear).advance len

def subSPResult (s : State) (imm : Byte) : State := (s.withSP (s.sp - imm.setWidth 16)).advance 2

/-! ### Each mnemonic's arm of exec, over its operand -/

theorem exec_addInstr (src : Source) (s : State) :
    exec (addInstr src) s = addSource (addInstr src).format src s := by
  rcases src with m | f <;> [skip; cases f] <;> rfl

theorem exec_ldInstr (src : Source) (s : State) :
    exec (ldInstr src) s = loadSource (ldInstr src).format src s := by
  rcases src with m | f <;> [skip; cases f] <;> rfl

theorem exec_subInstr (src : Source) (s : State) :
    exec (subInstr src) s = subSource (subInstr src).format src s := by
  rcases src with m | f <;> [skip; cases f] <;> rfl

theorem exec_clrInstr (f : MemForm) (s : State) :
    exec (clrInstr f) s = clearMem (clrInstr f).format f s := by
  cases f <;> rfl

/-- Every instruction is one of the eight instruction rules of R2. -/
theorem instr_cases (i : Instr) :
    (∃ src, i = addInstr src) ∨ (∃ src, i = ldInstr src) ∨ i = .clrA ∨ (∃ f, i = clrInstr f) ∨
    (∃ target, i = .jpfExtmem target) ∨ (∃ ptr, i = .jpfLongptr ptr) ∨ (∃ src, i = subInstr src) ∨
    (∃ imm, i = .subSPByte imm) := by
  cases i with
  | addByte m => exact .inl ⟨.imm m, rfl⟩
  | addShortmem v => exact .inl ⟨.mem (.shortmem v), rfl⟩
  | addLongmem v => exact .inl ⟨.mem (.longmem v), rfl⟩
  | addAtX => exact .inl ⟨.mem .atX, rfl⟩
  | addShortoffX v => exact .inl ⟨.mem (.shortoffX v), rfl⟩
  | addLongoffX v => exact .inl ⟨.mem (.longoffX v), rfl⟩
  | addAtY => exact .inl ⟨.mem .atY, rfl⟩
  | addShortoffY v => exact .inl ⟨.mem (.shortoffY v), rfl⟩
  | addLongoffY v => exact .inl ⟨.mem (.longoffY v), rfl⟩
  | addShortoffSP v => exact .inl ⟨.mem (.shortoffSP v), rfl⟩
  | addShortptr v => exact .inl ⟨.mem (.shortptr v), rfl⟩
  | addLongptr v => exact .inl ⟨.mem (.longptr v), rfl⟩
  | addShortptrX v => exact .inl ⟨.mem (.shortptrX v), rfl⟩
  | addLongptrX v => exact .inl ⟨.mem (.longptrX v), rfl⟩
  | addShortptrY v => exact .inl ⟨.mem (.shortptrY v), rfl⟩
  | ldByte m => exact .inr (.inl ⟨.imm m, rfl⟩)
  | ldShortmem v => exact .inr (.inl ⟨.mem (.shortmem v), rfl⟩)
  | ldLongmem v => exact .inr (.inl ⟨.mem (.longmem v), rfl⟩)
  | ldAtX => exact .inr (.inl ⟨.mem .atX, rfl⟩)
  | ldShortoffX v => exact .inr (.inl ⟨.mem (.shortoffX v), rfl⟩)
  | ldLongoffX v => exact .inr (.inl ⟨.mem (.longoffX v), rfl⟩)
  | ldAtY => exact .inr (.inl ⟨.mem .atY, rfl⟩)
  | ldShortoffY v => exact .inr (.inl ⟨.mem (.shortoffY v), rfl⟩)
  | ldLongoffY v => exact .inr (.inl ⟨.mem (.longoffY v), rfl⟩)
  | ldShortoffSP v => exact .inr (.inl ⟨.mem (.shortoffSP v), rfl⟩)
  | ldShortptr v => exact .inr (.inl ⟨.mem (.shortptr v), rfl⟩)
  | ldLongptr v => exact .inr (.inl ⟨.mem (.longptr v), rfl⟩)
  | ldShortptrX v => exact .inr (.inl ⟨.mem (.shortptrX v), rfl⟩)
  | ldLongptrX v => exact .inr (.inl ⟨.mem (.longptrX v), rfl⟩)
  | ldShortptrY v => exact .inr (.inl ⟨.mem (.shortptrY v), rfl⟩)
  | clrA => exact .inr (.inr (.inl rfl))
  | clrShortmem v => exact .inr (.inr (.inr (.inl ⟨.shortmem v, rfl⟩)))
  | clrLongmem v => exact .inr (.inr (.inr (.inl ⟨.longmem v, rfl⟩)))
  | clrAtX => exact .inr (.inr (.inr (.inl ⟨.atX, rfl⟩)))
  | clrShortoffX v => exact .inr (.inr (.inr (.inl ⟨.shortoffX v, rfl⟩)))
  | clrLongoffX v => exact .inr (.inr (.inr (.inl ⟨.longoffX v, rfl⟩)))
  | clrAtY => exact .inr (.inr (.inr (.inl ⟨.atY, rfl⟩)))
  | clrShortoffY v => exact .inr (.inr (.inr (.inl ⟨.shortoffY v, rfl⟩)))
  | clrLongoffY v => exact .inr (.inr (.inr (.inl ⟨.longoffY v, rfl⟩)))
  | clrShortoffSP v => exact .inr (.inr (.inr (.inl ⟨.shortoffSP v, rfl⟩)))
  | clrShortptr v => exact .inr (.inr (.inr (.inl ⟨.shortptr v, rfl⟩)))
  | clrLongptr v => exact .inr (.inr (.inr (.inl ⟨.longptr v, rfl⟩)))
  | clrShortptrX v => exact .inr (.inr (.inr (.inl ⟨.shortptrX v, rfl⟩)))
  | clrLongptrX v => exact .inr (.inr (.inr (.inl ⟨.longptrX v, rfl⟩)))
  | clrShortptrY v => exact .inr (.inr (.inr (.inl ⟨.shortptrY v, rfl⟩)))
  | jpfExtmem v => exact .inr (.inr (.inr (.inr (.inl ⟨v, rfl⟩))))
  | jpfLongptr v => exact .inr (.inr (.inr (.inr (.inr (.inl ⟨v, rfl⟩)))))
  | subByte m => exact .inr (.inr (.inr (.inr (.inr (.inr (.inl ⟨.imm m, rfl⟩))))))
  | subShortmem v => exact .inr (.inr (.inr (.inr (.inr (.inr (.inl ⟨.mem (.shortmem v), rfl⟩))))))
  | subLongmem v => exact .inr (.inr (.inr (.inr (.inr (.inr (.inl ⟨.mem (.longmem v), rfl⟩))))))
  | subAtX => exact .inr (.inr (.inr (.inr (.inr (.inr (.inl ⟨.mem .atX, rfl⟩))))))
  | subShortoffX v => exact .inr (.inr (.inr (.inr (.inr (.inr (.inl ⟨.mem (.shortoffX v), rfl⟩))))))
  | subLongoffX v => exact .inr (.inr (.inr (.inr (.inr (.inr (.inl ⟨.mem (.longoffX v), rfl⟩))))))
  | subAtY => exact .inr (.inr (.inr (.inr (.inr (.inr (.inl ⟨.mem .atY, rfl⟩))))))
  | subShortoffY v => exact .inr (.inr (.inr (.inr (.inr (.inr (.inl ⟨.mem (.shortoffY v), rfl⟩))))))
  | subLongoffY v => exact .inr (.inr (.inr (.inr (.inr (.inr (.inl ⟨.mem (.longoffY v), rfl⟩))))))
  | subShortoffSP v => exact .inr (.inr (.inr (.inr (.inr (.inr (.inl ⟨.mem (.shortoffSP v), rfl⟩))))))
  | subShortptr v => exact .inr (.inr (.inr (.inr (.inr (.inr (.inl ⟨.mem (.shortptr v), rfl⟩))))))
  | subLongptr v => exact .inr (.inr (.inr (.inr (.inr (.inr (.inl ⟨.mem (.longptr v), rfl⟩))))))
  | subShortptrX v => exact .inr (.inr (.inr (.inr (.inr (.inr (.inl ⟨.mem (.shortptrX v), rfl⟩))))))
  | subLongptrX v => exact .inr (.inr (.inr (.inr (.inr (.inr (.inl ⟨.mem (.longptrX v), rfl⟩))))))
  | subShortptrY v => exact .inr (.inr (.inr (.inr (.inr (.inr (.inl ⟨.mem (.shortptrY v), rfl⟩))))))
  | subSPByte m => exact .inr (.inr (.inr (.inr (.inr (.inr (.inr ⟨m, rfl⟩))))))

/-! ### Telling the instruction rules apart -/

/-- The rule that gives an instruction its meaning (R2). -/
def ruleNumber : Instr → Nat
  | .addByte _ | .addShortmem _ | .addLongmem _ | .addAtX | .addShortoffX _ | .addLongoffX _ | .addAtY
  | .addShortoffY _ | .addLongoffY _ | .addShortoffSP _ | .addShortptr _ | .addLongptr _ | .addShortptrX _
  | .addLongptrX _ | .addShortptrY _ => 73
  | .ldByte _ | .ldShortmem _ | .ldLongmem _ | .ldAtX | .ldShortoffX _ | .ldLongoffX _ | .ldAtY
  | .ldShortoffY _ | .ldLongoffY _ | .ldShortoffSP _ | .ldShortptr _ | .ldLongptr _ | .ldShortptrX _
  | .ldLongptrX _ | .ldShortptrY _ => 76
  | .clrA => 79
  | .clrShortmem _ | .clrLongmem _ | .clrAtX | .clrShortoffX _ | .clrLongoffX _ | .clrAtY | .clrShortoffY _
  | .clrLongoffY _ | .clrShortoffSP _ | .clrShortptr _ | .clrLongptr _ | .clrShortptrX _ | .clrLongptrX _
  | .clrShortptrY _ => 80
  | .jpfExtmem _ => 82
  | .jpfLongptr _ => 83
  | .subByte _ | .subShortmem _ | .subLongmem _ | .subAtX | .subShortoffX _ | .subLongoffX _ | .subAtY
  | .subShortoffY _ | .subLongoffY _ | .subShortoffSP _ | .subShortptr _ | .subLongptr _ | .subShortptrX _
  | .subLongptrX _ | .subShortptrY _ => 85
  | .subSPByte _ => 87

@[simp] theorem ruleNumber_addInstr (src : Source) : ruleNumber (addInstr src) = 73 := by
  rcases src with m | f <;> [skip; cases f] <;> rfl

@[simp] theorem ruleNumber_ldInstr (src : Source) : ruleNumber (ldInstr src) = 76 := by
  rcases src with m | f <;> [skip; cases f] <;> rfl

@[simp] theorem ruleNumber_clrInstr (f : MemForm) : ruleNumber (clrInstr f) = 80 := by cases f <;> rfl

@[simp] theorem ruleNumber_subInstr (src : Source) : ruleNumber (subInstr src) = 85 := by
  rcases src with m | f <;> [skip; cases f] <;> rfl

@[simp] theorem ruleNumber_clrA : ruleNumber .clrA = 79 := rfl

@[simp] theorem ruleNumber_jpfExtmem (target : ExtAddr) : ruleNumber (.jpfExtmem target) = 82 := rfl

@[simp] theorem ruleNumber_jpfLongptr (ptr : Word) : ruleNumber (.jpfLongptr ptr) = 83 := rfl

@[simp] theorem ruleNumber_subSPByte (imm : Byte) : ruleNumber (.subSPByte imm) = 87 := rfl

/-- Instructions of different rules are different. -/
theorem ne_of_ruleNumber {i j : Instr} (h : ruleNumber i ≠ ruleNumber j) : i ≠ j := fun e => h (congrArg _ e)

theorem addInstr_injective {a b : Source} (h : addInstr a = addInstr b) : a = b := by
  rcases a with m | f <;> rcases b with m' | g
  · injection h with h; rw [h]
  · cases g <;> cases h
  · cases f <;> cases h
  · cases f <;> cases g <;> first | (injection h with h; rw [h]) | rfl | cases h

theorem ldInstr_injective {a b : Source} (h : ldInstr a = ldInstr b) : a = b := by
  rcases a with m | f <;> rcases b with m' | g
  · injection h with h; rw [h]
  · cases g <;> cases h
  · cases f <;> cases h
  · cases f <;> cases g <;> first | (injection h with h; rw [h]) | rfl | cases h

theorem subInstr_injective {a b : Source} (h : subInstr a = subInstr b) : a = b := by
  rcases a with m | f <;> rcases b with m' | g
  · injection h with h; rw [h]
  · cases g <;> cases h
  · cases f <;> cases h
  · cases f <;> cases g <;> first | (injection h with h; rw [h]) | rfl | cases h

/-! ### When each instruction completes, and with what -/

theorem exec_add_next (src : Source) (s t : State) :
    exec (addInstr src) s = .next t ↔
      (s.hasRoom (addInstr src).length ∧ sourceAdmitted s src) ∧ t = addResult s src (addInstr src).length := by
  rw [exec_addInstr, addSource, answer_next]
  simp [sourceChecks_ok, addResult, Instr.length]

theorem exec_ld_next (src : Source) (s t : State) :
    exec (ldInstr src) s = .next t ↔
      (s.hasRoom (ldInstr src).length ∧ sourceAdmitted s src) ∧ t = ldResult s src (ldInstr src).length := by
  rw [exec_ldInstr, loadSource, answer_next]
  simp [sourceChecks_ok, ldResult, Instr.length]

theorem exec_sub_next (src : Source) (s t : State) :
    exec (subInstr src) s = .next t ↔
      (s.hasRoom (subInstr src).length ∧ sourceAdmitted s src) ∧ t = subResult s src (subInstr src).length := by
  rw [exec_subInstr, subSource, answer_next]
  simp [sourceChecks_ok, subResult, Instr.length]

theorem exec_clrA_next (s t : State) : exec .clrA s = .next t ↔ s.hasRoom 1 ∧ t = clrAResult s := by
  change execClrA s = _ ↔ _
  rw [execClrA, answer_next]
  simp [clrAResult, Format.length]

theorem exec_clr_next (f : MemForm) (s t : State) :
    exec (clrInstr f) s = .next t ↔
      (s.hasRoom (clrInstr f).length ∧ destAdmitted s f) ∧ t = clrResult s f (clrInstr f).length := by
  rw [exec_clrInstr, clearMem, answer_next]
  simp [destChecks_ok, clrResult, Instr.length]

theorem exec_jpfExtmem_next (target : ExtAddr) (s t : State) :
    exec (.jpfExtmem target) s = .next t ↔ s.hasRoom 4 ∧ t = s.withPC target := by
  change execJpfExtmem target s = _ ↔ _
  rw [execJpfExtmem, answer_next]
  simp [Format.length]

theorem exec_jpfLongptr_next (ptr : Word) (s t : State) :
    exec (.jpfLongptr ptr) s = .next t ↔
      (s.hasRoom 4 ∧ readable s.cfg ptr.toNat = true ∧ readable s.cfg (ptr.toNat + 1) = true ∧
        readable s.cfg (ptr.toNat + 2) = true) ∧ t = s.withPC (pointerExt s ptr.toNat) := by
  change execJpfLongptr ptr s = _ ↔ _
  rw [execJpfLongptr, answer_next]
  simp [Format.length]

theorem exec_subSP_next (imm : Byte) (s t : State) :
    exec (.subSPByte imm) s = .next t ↔
      (s.hasRoom 2 ∧ (s.cfg.spPolicy = .wrap ∨ imm.toNat ≤ s.sp.toNat)) ∧ t = subSPResult s imm := by
  change execSubSPByte imm s = _ ↔ _
  rw [execSubSPByte, answer_next]
  simp [subSPResult, Format.length]

/-- Everything an instruction that completes can have done: one case per instruction rule of R2, each with the
conditions it met. -/
theorem exec_next_cases {i : Instr} {s t : State} (h : exec i s = .next t) :
    (∃ src, i = addInstr src ∧ s.hasRoom i.length ∧ sourceAdmitted s src ∧ t = addResult s src i.length) ∨
    (∃ src, i = ldInstr src ∧ s.hasRoom i.length ∧ sourceAdmitted s src ∧ t = ldResult s src i.length) ∨
    (i = .clrA ∧ s.hasRoom 1 ∧ t = clrAResult s) ∨
    (∃ f, i = clrInstr f ∧ s.hasRoom i.length ∧ destAdmitted s f ∧ t = clrResult s f i.length) ∨
    (∃ target, i = .jpfExtmem target ∧ s.hasRoom 4 ∧ t = s.withPC target) ∨
    (∃ ptr, i = .jpfLongptr ptr ∧ s.hasRoom 4 ∧ t = s.withPC (pointerExt s ptr.toNat)) ∨
    (∃ src, i = subInstr src ∧ s.hasRoom i.length ∧ sourceAdmitted s src ∧ t = subResult s src i.length) ∨
    (∃ imm, i = .subSPByte imm ∧ s.hasRoom 2 ∧ t = subSPResult s imm) := by
  rcases instr_cases i with ⟨src, rfl⟩ | ⟨src, rfl⟩ | rfl | ⟨f, rfl⟩ | ⟨v, rfl⟩ | ⟨v, rfl⟩ | ⟨src, rfl⟩ | ⟨v, rfl⟩
  · rw [exec_add_next] at h; exact .inl ⟨src, rfl, h.1.1, h.1.2, h.2⟩
  · rw [exec_ld_next] at h; exact .inr (.inl ⟨src, rfl, h.1.1, h.1.2, h.2⟩)
  · rw [exec_clrA_next] at h; exact .inr (.inr (.inl ⟨rfl, h⟩))
  · rw [exec_clr_next] at h; exact .inr (.inr (.inr (.inl ⟨f, rfl, h.1.1, h.1.2, h.2⟩)))
  · rw [exec_jpfExtmem_next] at h; exact .inr (.inr (.inr (.inr (.inl ⟨v, rfl, h⟩))))
  · rw [exec_jpfLongptr_next] at h; exact .inr (.inr (.inr (.inr (.inr (.inl ⟨v, rfl, h.1.1, h.2⟩)))))
  · rw [exec_sub_next] at h
    exact .inr (.inr (.inr (.inr (.inr (.inr (.inl ⟨src, rfl, h.1.1, h.1.2, h.2⟩))))))
  · rw [exec_subSP_next] at h; exact .inr (.inr (.inr (.inr (.inr (.inr (.inr ⟨v, rfl, h.1.1, h.2⟩))))))

/-- A step that gives a next state ran the instruction at PC, at no stop address and under every check of R92. -/
theorem step_next_cases {s t : State} (h : step s = .next t) :
    isStop s.cfg s.pc = false ∧ (∀ c ∈ fetchChecks s, c.ok = true) ∧
    ∃ i, fetchedInstr s = some i ∧ exec i s = .next t := by
  unfold step at h
  split at h <;> rename_i hstop
  · cases h
  · split at h <;> rename_i hf
    · cases h
    · split at h <;> rename_i hi
      · exact ⟨by simpa using hstop, (firstRefusal_eq_none _).1 hf, _, hi, h⟩
      · cases h

/-! ### Runs -/

theorem run_zero (s : State) : run 0 s = .next s := rfl

theorem run_succ (n : Nat) (s : State) :
    run (n + 1) s =
      match step s with
      | .next t => run n t
      | .fault e => .fault e
      | .refused r => .refused r := by
  refine (Host.Core.run.eq_2 Sys2Proof.core s n).trans ?_
  have h : Sys2Proof.core.step s = step s := rfl
  cases hs : step s <;> simp only [h, hs] <;> rfl

/-- A relation between two states that is reflexive and transitive holds over a run if it holds over each step. -/
theorem run_relation {P : State → State → Prop} (refl : ∀ s, P s s) (trans : ∀ s t u, P s t → P t u → P s u)
    (one : ∀ s t, step s = .next t → P s t) (n : Nat) (s t : State) (h : run n s = .next t) : P s t := by
  induction n generalizing s with
  | zero => cases h; exact refl _
  | succ n ih =>
    rw [run_succ] at h
    split at h
    · rename_i u hu; exact trans _ _ _ (one _ _ hu) (ih _ h)
    · cases h
    · cases h

/-- A property of states holds after a run if it holds before and each step keeps it. -/
theorem run_invariant {P : State → Prop} (one : ∀ s t, P s → step s = .next t → P t) (n : Nat) (s t : State)
    (hs : P s) (h : run n s = .next t) : P t :=
  run_relation (P := fun s t => P s → P t) (fun _ h => h) (fun _ _ _ h h' hp => h' (h hp))
    (fun s t h hp => one s t hp h) n s t h hs

end Sys2Proof.Machine
end

