-- ==== Sys2Proof/Laws/Fetch.lean ====
section
/-! SUPPORT. Fetching: when the checks before an instruction hold, and what they and the fetched instruction depend on. -/

namespace Sys2Proof.Machine

/-- The operand bytes' checks hold exactly when each byte is in `CODE`. -/
theorem operandChecks_ok (s : State) (k n : Nat) :
    (∀ c ∈ operandChecks s k n, c.ok = true) ↔ ∀ j, k ≤ j → j < k + n → inCode s.cfg (s.pc.toNat + j) = true := by
  induction n generalizing k with
  | zero => simp [operandChecks]; omega
  | succ n ih =>
    simp only [operandChecks, List.forall_mem_cons, ih, fetchCheck_ok]
    refine ⟨fun ⟨h1, h2⟩ j hj hj' => ?_, fun h => ⟨h k (by omega) (by omega), fun j h1 h2 => h j (by omega) (by omega)⟩⟩
    by_cases h : j = k
    · subst h; exact h1
    · exact h2 j (by omega) (by omega)

/-- The checks of the operand bytes depend on PC and the parameters alone. -/
theorem operandChecks_congr {s t : State} (hpc : t.pc = s.pc) (hcfg : t.cfg = s.cfg) (k n : Nat) :
    operandChecks t k n = operandChecks s k n := by
  induction n generalizing k with
  | zero => rfl
  | succ n ih => simp only [operandChecks, ih, fetchCheck, hpc, hcfg]

theorem codeByte_congr {s t : State} (hpc : t.pc = s.pc) (hmem : t.mem = s.mem) (k : Nat) :
    codeByte t k = codeByte s k := by simp only [codeByte, hpc, hmem]

/-- What is fetched, and under which checks, depends on PC, memory and the parameters alone. -/
theorem fetchChecks_congr {s t : State} (hpc : t.pc = s.pc) (hmem : t.mem = s.mem) (hcfg : t.cfg = s.cfg) :
    fetchChecks t = fetchChecks s := by
  simp only [fetchChecks, fetchCheck, roomCheck, fetchedRow, headLength, operandChecks_congr hpc hcfg,
    codeByte_congr hpc hmem, hpc, hcfg]

theorem fetchedInstr_congr {s t : State} (hpc : t.pc = s.pc) (hmem : t.mem = s.mem) :
    fetchedInstr t = fetchedInstr s := by simp only [fetchedInstr, hpc, hmem]

/-- The bytes at PC decode by the row they select (R43). -/
theorem decode_at_pc (s : State) :
    decode (s.mem.readBytes s.pc.toNat 4) =
      if isPrecode (codeByte s 0) then decodeRow (fetchedRow s) [codeByte s 2, codeByte s 3]
      else decodeRow (fetchedRow s) [codeByte s 1, codeByte s 2, codeByte s 3] := by
  by_cases hp : isPrecode (s.mem.read s.pc.toNat) = true <;>
    simp [Memory.readBytes, decode, fetchedRow, codeByte, Nat.add_assoc, hp]

theorem fetchedRow_mem {s : State} {r : Row} (h : fetchedRow s = some r) : r ∈ opcodeTable := by
  unfold fetchedRow at h
  split at h <;> exact (findRow_mem h).1

/-- No row of the table is longer than 4 bytes. -/
theorem operandBytes_le : ∀ r ∈ opcodeTable,
    (r.precode.isSome → r.shape.operandBytes ≤ 2) ∧ r.shape.operandBytes ≤ 3 := by
  intro r hr
  fin_cases hr <;> exact ⟨by decide, by decide⟩

/-- A fetched row's length is its head, as far as it was fetched to select the row, and its operand bytes. -/
theorem fetchedRow_length {s : State} {r : Row} (h : fetchedRow s = some r) :
    r.length = headLength s + r.shape.operandBytes ∧ headLength s + r.shape.operandBytes ≤ 4 := by
  have hb := operandBytes_le r (fetchedRow_mem h)
  unfold fetchedRow at h
  unfold Row.length headLength
  split at h <;> rename_i hp <;> have hr := (findRow_mem h).2.1 <;> simp [hr, hp] at hb ⊢ <;> omega

/-- The instruction the bytes at PC decode to has the length of the row they select. -/
theorem decode_row {s : State} {i : Instr} {rest : List Byte}
    (h : decode (s.mem.readBytes s.pc.toNat 4) = .ok (i, rest)) :
    ∃ r, fetchedRow s = some r ∧ i.length = r.length := by
  rw [decode_at_pc] at h
  split at h <;>
    (obtain ⟨r, h1, -, h2⟩ := decodeRow_ok h (fun _ hr => fetchedRow_mem hr); exact ⟨r, h1, h2⟩)

/-- Where the bytes at PC select a row, they decode. -/
theorem fetchedRow_decodes {s : State} {r : Row} (h : fetchedRow s = some r) :
    ∃ i rest, decode (s.mem.readBytes s.pc.toNat 4) = .ok (i, rest) := by
  have hl := fetchedRow_length h
  unfold headLength at hl
  rw [decode_at_pc, h]
  split <;> rename_i hp <;> simp only [hp, Bool.false_eq_true, ↓reduceIte] at hl
  · obtain ⟨i, hi⟩ := assemble_of_length r.shape [codeByte s 2, codeByte s 3] (by simp only [List.length]; omega)
    exact ⟨i, _, hi⟩
  · obtain ⟨i, hi⟩ := assemble_of_length r.shape [codeByte s 1, codeByte s 2, codeByte s 3]
      (by simp only [List.length]; omega)
    exact ⟨i, _, hi⟩

/-- Where the bytes at PC decode, checks 1 to 5 of R92 hold exactly when the instruction fits and each of its bytes is in
`CODE`. -/
theorem fetchChecks_ok {s : State} {i : Instr} {rest : List Byte}
    (hd : decode (s.mem.readBytes s.pc.toNat 4) = .ok (i, rest)) :
    (∀ c ∈ fetchChecks s, c.ok = true) ↔
      s.hasRoom i.length ∧ ∀ k, k < i.length → inCode s.cfg (s.pc.toNat + k) = true := by
  obtain ⟨r, hr, hl⟩ := decode_row hd
  have hn := fetchedRow_length hr
  unfold headLength at hn
  unfold fetchChecks headLength
  rw [hr]
  simp only [List.cons_append, List.forall_mem_cons, List.mem_append, or_imp, forall_and, operandChecks_ok,
    roomCheck_ok, fetchCheck_ok, ← hl]
  split <;> rename_i hp <;> simp [hp] at hn ⊢ <;> constructor
  · rintro ⟨h0, ⟨-, h1⟩, h2, h3⟩
    refine ⟨h2, fun k hk => ?_⟩
    match k with
    | 0 => exact h0
    | 1 => exact h1
    | k + 2 => exact h3 _ (by omega) (by omega)
  · rintro ⟨h1, h2⟩
    simp only [State.hasRoom] at *
    exact ⟨h2 0 (by omega), ⟨by omega, h2 1 (by omega)⟩, by omega, fun j _ _ => h2 j (by omega)⟩
  · rintro ⟨h0, h1, h2⟩
    refine ⟨h1, fun k hk => ?_⟩
    match k with
    | 0 => exact h0
    | k + 1 => exact h2 _ (by omega) (by omega)
  · rintro ⟨h1, h2⟩
    exact ⟨h2 0 (by omega), h1, fun j _ _ => h2 j (by omega)⟩

/-- At no stop address, a check that fails before the instruction runs gives its refusal. -/
theorem step_refused {s : State} {r : Refusal} (hf : ¬ s.final) (h : firstRefusal (fetchChecks s) = some r) :
    step s = .refused r := by
  unfold step
  unfold State.final at hf
  rw [if_neg hf, h]

/-- A prefix of the bytes read. -/
theorem readBytes_take (m : Memory) (addr n k : Nat) (h : n ≤ k) :
    m.readBytes addr n = (m.readBytes addr k).take n := by
  induction n generalizing addr k with
  | zero => simp [Memory.readBytes]
  | succ n ih =>
    obtain ⟨k, rfl⟩ : ∃ j, k = j + 1 := ⟨k - 1, by omega⟩
    simp [Memory.readBytes, ih (addr + 1) k (by omega)]

end Sys2Proof.Machine
end

