-- ==== Sys2Proof/Laws/Flags.lean ====
section
/-! SUPPORT. The bits of a byte that the flag formulas name, as comparisons of natural numbers, and the carry and borrow
out of a bit position in those terms: every flag then is a fact of linear arithmetic. -/

namespace Sys2Proof.Machine

theorem getLsbD_seven (b : Byte) : b.getLsbD 7 = decide (128 ≤ b.toNat) := by
  have := b.isLt
  rw [← BitVec.testBit_toNat, Nat.testBit_eq_decide_div_mod_eq]
  exact decide_eq_decide.2 (by omega)

theorem getLsbD_six (b : Byte) : b.getLsbD 6 = decide (64 ≤ b.toNat % 128) := by
  rw [← BitVec.testBit_toNat, Nat.testBit_eq_decide_div_mod_eq]
  exact decide_eq_decide.2 (by omega)

theorem getLsbD_three (b : Byte) : b.getLsbD 3 = decide (8 ≤ b.toNat % 16) := by
  rw [← BitVec.testBit_toNat, Nat.testBit_eq_decide_div_mod_eq]
  exact decide_eq_decide.2 (by omega)

theorem negative_eq (r : Byte) : negative r = decide (128 ≤ r.toNat) := getLsbD_seven r

theorem isZero_eq (r : Byte) : isZero r = decide (r.toNat = 0) := by
  rw [isZero, beq_eq_decide]
  exact decide_eq_decide.2 ⟨fun h => by simp [h], fun h => BitVec.eq_of_toNat_eq h⟩

/-- A Boolean carry expression, where each of its bits is a comparison. -/
theorem carry_decide (p q r : Prop) [Decidable p] [Decidable q] [Decidable r] :
    (decide p && decide q || decide q && !decide r || !decide r && decide p) =
      decide (p ∧ q ∨ q ∧ ¬ r ∨ ¬ r ∧ p) := by
  by_cases p <;> by_cases q <;> by_cases r <;> simp [*]

/-- A Boolean borrow expression, where each of its bits is a comparison. -/
theorem borrow_decide (p q r : Prop) [Decidable p] [Decidable q] [Decidable r] :
    (!decide p && decide q || !decide p && decide r || decide p && decide q && decide r) =
      decide (¬ p ∧ q ∨ ¬ p ∧ r ∨ p ∧ q ∧ r) := by
  by_cases p <;> by_cases q <;> by_cases r <;> simp [*]

theorem toNat_sub_byte (a m : Byte) : (a - m).toNat = (a.toNat + 256 - m.toNat) % 256 := by
  have := a.isLt
  have := m.isLt
  rw [BitVec.toNat_sub]
  omega

theorem toNat_add_byte (a m : Byte) : (a + m).toNat = (a.toNat + m.toNat) % 256 := BitVec.toNat_add a m

theorem toInt_byte (b : Byte) : b.toInt = if b.toNat < 128 then (b.toNat : Int) else (b.toNat : Int) - 256 := by
  have := b.isLt
  rw [BitVec.toInt_eq_toNat_cond]
  split <;> split <;> omega

/-! ### Carries and borrows as comparisons -/

theorem carryOut_seven (a m : Byte) : carryOut 7 a m (a + m) = decide (256 ≤ a.toNat + m.toNat) := by
  have := a.isLt
  have := m.isLt
  simp only [carryOut, getLsbD_seven, toNat_add_byte, carry_decide]
  exact decide_eq_decide.2 (by omega)

theorem carryOut_six (a m : Byte) : carryOut 6 a m (a + m) = decide (128 ≤ a.toNat % 128 + m.toNat % 128) := by
  simp only [carryOut, getLsbD_six, toNat_add_byte, carry_decide]
  exact decide_eq_decide.2 (by omega)

theorem carryOut_three (a m : Byte) : carryOut 3 a m (a + m) = decide (16 ≤ a.toNat % 16 + m.toNat % 16) := by
  simp only [carryOut, getLsbD_three, toNat_add_byte, carry_decide]
  exact decide_eq_decide.2 (by omega)

theorem borrowOut_seven (a m : Byte) : borrowOut 7 a m (a - m) = decide (a.toNat < m.toNat) := by
  have := a.isLt
  have := m.isLt
  simp only [borrowOut, getLsbD_seven, toNat_sub_byte, borrow_decide]
  exact decide_eq_decide.2 (by omega)

theorem borrowOut_six (a m : Byte) : borrowOut 6 a m (a - m) = decide (a.toNat % 128 < m.toNat % 128) := by
  have := a.isLt
  have := m.isLt
  simp only [borrowOut, getLsbD_six, toNat_sub_byte, borrow_decide]
  exact decide_eq_decide.2 (by omega)

/-- Exclusive or of two decisions. -/
theorem xor_decide (p q : Prop) [Decidable p] [Decidable q] : (decide p ^^ decide q) = decide (¬ (p ↔ q)) := by
  by_cases p <;> by_cases q <;> simp [*]

/-! ### Choosing flags -/

@[simp] theorem Flags.select_self (written f : Flags) : Flags.select written f f = f := by simp [Flags.select]

/-- One flag chosen from `b` over a choice from `b'`, where the two agree outside the first choice. -/
theorem select_flag (w w' b b' o : Bool) (h : b = if w then b else b') :
    (if w then b else if w' then b' else o) = if w || w' then b else o := by
  cases w <;> cases w' <;> simp_all

/-- Flags chosen from `new` over a choice from `new'`, where the two agree outside the first choice: one choice from
`new`. -/
theorem Flags.select_select {w new new' : Flags} (w' old : Flags) (h : new = Flags.select w new new') :
    Flags.select w new (Flags.select w' new' old) =
      Flags.select ⟨w.v || w'.v, w.i1 || w'.i1, w.h || w'.h, w.i0 || w'.i0, w.n || w'.n, w.z || w'.z, w.c || w'.c⟩
        new old := by
  have field : ∀ k : Flags → Bool, k new = k (Flags.select w new new') := fun k => congrArg k h
  exact Flags.mk.injEq .. ▸ ⟨select_flag _ _ _ _ _ (field Flags.v), select_flag _ _ _ _ _ (field Flags.i1),
    select_flag _ _ _ _ _ (field Flags.h), select_flag _ _ _ _ _ (field Flags.i0),
    select_flag _ _ _ _ _ (field Flags.n), select_flag _ _ _ _ _ (field Flags.z),
    select_flag _ _ _ _ _ (field Flags.c)⟩

end Sys2Proof.Machine
end

