-- ==== Sys2Proof/Laws/PerInstr.lean ====
section
/-! SUPPORT. One lemma per constructor of Instr: an instruction's encoding is as long as the table's `lgth` cell says, at
most 4 bytes, and the table has its cycle count. -/

namespace Sys2Proof.Laws.EncodedLength

/-- The encoding has the instruction's length, between 1 and 4 bytes, and the table gives a cycle count. -/
def Statement (i : Instr) : Prop :=
  (encode i).length = i.length ∧ 1 ≤ i.length ∧ i.length ≤ maxLength ∧ i.cycles.isSome = true

theorem addByte (imm : Byte) : Statement (.addByte imm) :=
  ⟨rfl, Nat.le_of_ble_eq_true rfl, Nat.le_of_ble_eq_true rfl, rfl⟩

theorem addShortmem (addr : Byte) : Statement (.addShortmem addr) :=
  ⟨rfl, Nat.le_of_ble_eq_true rfl, Nat.le_of_ble_eq_true rfl, rfl⟩

theorem addLongmem (addr : Word) : Statement (.addLongmem addr) :=
  ⟨rfl, Nat.le_of_ble_eq_true rfl, Nat.le_of_ble_eq_true rfl, rfl⟩

theorem addAtX : Statement .addAtX :=
  ⟨rfl, Nat.le_of_ble_eq_true rfl, Nat.le_of_ble_eq_true rfl, rfl⟩

theorem addShortoffX (off : Byte) : Statement (.addShortoffX off) :=
  ⟨rfl, Nat.le_of_ble_eq_true rfl, Nat.le_of_ble_eq_true rfl, rfl⟩

theorem addLongoffX (off : Word) : Statement (.addLongoffX off) :=
  ⟨rfl, Nat.le_of_ble_eq_true rfl, Nat.le_of_ble_eq_true rfl, rfl⟩

theorem addAtY : Statement .addAtY :=
  ⟨rfl, Nat.le_of_ble_eq_true rfl, Nat.le_of_ble_eq_true rfl, rfl⟩

theorem addShortoffY (off : Byte) : Statement (.addShortoffY off) :=
  ⟨rfl, Nat.le_of_ble_eq_true rfl, Nat.le_of_ble_eq_true rfl, rfl⟩

theorem addLongoffY (off : Word) : Statement (.addLongoffY off) :=
  ⟨rfl, Nat.le_of_ble_eq_true rfl, Nat.le_of_ble_eq_true rfl, rfl⟩

theorem addShortoffSP (off : Byte) : Statement (.addShortoffSP off) :=
  ⟨rfl, Nat.le_of_ble_eq_true rfl, Nat.le_of_ble_eq_true rfl, rfl⟩

theorem addShortptr (ptr : Byte) : Statement (.addShortptr ptr) :=
  ⟨rfl, Nat.le_of_ble_eq_true rfl, Nat.le_of_ble_eq_true rfl, rfl⟩

theorem addLongptr (ptr : Word) : Statement (.addLongptr ptr) :=
  ⟨rfl, Nat.le_of_ble_eq_true rfl, Nat.le_of_ble_eq_true rfl, rfl⟩

theorem addShortptrX (ptr : Byte) : Statement (.addShortptrX ptr) :=
  ⟨rfl, Nat.le_of_ble_eq_true rfl, Nat.le_of_ble_eq_true rfl, rfl⟩

theorem addLongptrX (ptr : Word) : Statement (.addLongptrX ptr) :=
  ⟨rfl, Nat.le_of_ble_eq_true rfl, Nat.le_of_ble_eq_true rfl, rfl⟩

theorem addShortptrY (ptr : Byte) : Statement (.addShortptrY ptr) :=
  ⟨rfl, Nat.le_of_ble_eq_true rfl, Nat.le_of_ble_eq_true rfl, rfl⟩

theorem ldByte (imm : Byte) : Statement (.ldByte imm) :=
  ⟨rfl, Nat.le_of_ble_eq_true rfl, Nat.le_of_ble_eq_true rfl, rfl⟩

theorem ldShortmem (addr : Byte) : Statement (.ldShortmem addr) :=
  ⟨rfl, Nat.le_of_ble_eq_true rfl, Nat.le_of_ble_eq_true rfl, rfl⟩

theorem ldLongmem (addr : Word) : Statement (.ldLongmem addr) :=
  ⟨rfl, Nat.le_of_ble_eq_true rfl, Nat.le_of_ble_eq_true rfl, rfl⟩

theorem ldAtX : Statement .ldAtX :=
  ⟨rfl, Nat.le_of_ble_eq_true rfl, Nat.le_of_ble_eq_true rfl, rfl⟩

theorem ldShortoffX (off : Byte) : Statement (.ldShortoffX off) :=
  ⟨rfl, Nat.le_of_ble_eq_true rfl, Nat.le_of_ble_eq_true rfl, rfl⟩

theorem ldLongoffX (off : Word) : Statement (.ldLongoffX off) :=
  ⟨rfl, Nat.le_of_ble_eq_true rfl, Nat.le_of_ble_eq_true rfl, rfl⟩

theorem ldAtY : Statement .ldAtY :=
  ⟨rfl, Nat.le_of_ble_eq_true rfl, Nat.le_of_ble_eq_true rfl, rfl⟩

theorem ldShortoffY (off : Byte) : Statement (.ldShortoffY off) :=
  ⟨rfl, Nat.le_of_ble_eq_true rfl, Nat.le_of_ble_eq_true rfl, rfl⟩

theorem ldLongoffY (off : Word) : Statement (.ldLongoffY off) :=
  ⟨rfl, Nat.le_of_ble_eq_true rfl, Nat.le_of_ble_eq_true rfl, rfl⟩

theorem ldShortoffSP (off : Byte) : Statement (.ldShortoffSP off) :=
  ⟨rfl, Nat.le_of_ble_eq_true rfl, Nat.le_of_ble_eq_true rfl, rfl⟩

theorem ldShortptr (ptr : Byte) : Statement (.ldShortptr ptr) :=
  ⟨rfl, Nat.le_of_ble_eq_true rfl, Nat.le_of_ble_eq_true rfl, rfl⟩

theorem ldLongptr (ptr : Word) : Statement (.ldLongptr ptr) :=
  ⟨rfl, Nat.le_of_ble_eq_true rfl, Nat.le_of_ble_eq_true rfl, rfl⟩

theorem ldShortptrX (ptr : Byte) : Statement (.ldShortptrX ptr) :=
  ⟨rfl, Nat.le_of_ble_eq_true rfl, Nat.le_of_ble_eq_true rfl, rfl⟩

theorem ldLongptrX (ptr : Word) : Statement (.ldLongptrX ptr) :=
  ⟨rfl, Nat.le_of_ble_eq_true rfl, Nat.le_of_ble_eq_true rfl, rfl⟩

theorem ldShortptrY (ptr : Byte) : Statement (.ldShortptrY ptr) :=
  ⟨rfl, Nat.le_of_ble_eq_true rfl, Nat.le_of_ble_eq_true rfl, rfl⟩

theorem clrA : Statement .clrA :=
  ⟨rfl, Nat.le_of_ble_eq_true rfl, Nat.le_of_ble_eq_true rfl, rfl⟩

theorem clrShortmem (addr : Byte) : Statement (.clrShortmem addr) :=
  ⟨rfl, Nat.le_of_ble_eq_true rfl, Nat.le_of_ble_eq_true rfl, rfl⟩

theorem clrLongmem (addr : Word) : Statement (.clrLongmem addr) :=
  ⟨rfl, Nat.le_of_ble_eq_true rfl, Nat.le_of_ble_eq_true rfl, rfl⟩

theorem clrAtX : Statement .clrAtX :=
  ⟨rfl, Nat.le_of_ble_eq_true rfl, Nat.le_of_ble_eq_true rfl, rfl⟩

theorem clrShortoffX (off : Byte) : Statement (.clrShortoffX off) :=
  ⟨rfl, Nat.le_of_ble_eq_true rfl, Nat.le_of_ble_eq_true rfl, rfl⟩

theorem clrLongoffX (off : Word) : Statement (.clrLongoffX off) :=
  ⟨rfl, Nat.le_of_ble_eq_true rfl, Nat.le_of_ble_eq_true rfl, rfl⟩

theorem clrAtY : Statement .clrAtY :=
  ⟨rfl, Nat.le_of_ble_eq_true rfl, Nat.le_of_ble_eq_true rfl, rfl⟩

theorem clrShortoffY (off : Byte) : Statement (.clrShortoffY off) :=
  ⟨rfl, Nat.le_of_ble_eq_true rfl, Nat.le_of_ble_eq_true rfl, rfl⟩

theorem clrLongoffY (off : Word) : Statement (.clrLongoffY off) :=
  ⟨rfl, Nat.le_of_ble_eq_true rfl, Nat.le_of_ble_eq_true rfl, rfl⟩

theorem clrShortoffSP (off : Byte) : Statement (.clrShortoffSP off) :=
  ⟨rfl, Nat.le_of_ble_eq_true rfl, Nat.le_of_ble_eq_true rfl, rfl⟩

theorem clrShortptr (ptr : Byte) : Statement (.clrShortptr ptr) :=
  ⟨rfl, Nat.le_of_ble_eq_true rfl, Nat.le_of_ble_eq_true rfl, rfl⟩

theorem clrLongptr (ptr : Word) : Statement (.clrLongptr ptr) :=
  ⟨rfl, Nat.le_of_ble_eq_true rfl, Nat.le_of_ble_eq_true rfl, rfl⟩

theorem clrShortptrX (ptr : Byte) : Statement (.clrShortptrX ptr) :=
  ⟨rfl, Nat.le_of_ble_eq_true rfl, Nat.le_of_ble_eq_true rfl, rfl⟩

theorem clrLongptrX (ptr : Word) : Statement (.clrLongptrX ptr) :=
  ⟨rfl, Nat.le_of_ble_eq_true rfl, Nat.le_of_ble_eq_true rfl, rfl⟩

theorem clrShortptrY (ptr : Byte) : Statement (.clrShortptrY ptr) :=
  ⟨rfl, Nat.le_of_ble_eq_true rfl, Nat.le_of_ble_eq_true rfl, rfl⟩

theorem jpfExtmem (target : ExtAddr) : Statement (.jpfExtmem target) :=
  ⟨rfl, Nat.le_of_ble_eq_true rfl, Nat.le_of_ble_eq_true rfl, rfl⟩

theorem jpfLongptr (ptr : Word) : Statement (.jpfLongptr ptr) :=
  ⟨rfl, Nat.le_of_ble_eq_true rfl, Nat.le_of_ble_eq_true rfl, rfl⟩

theorem subByte (imm : Byte) : Statement (.subByte imm) :=
  ⟨rfl, Nat.le_of_ble_eq_true rfl, Nat.le_of_ble_eq_true rfl, rfl⟩

theorem subShortmem (addr : Byte) : Statement (.subShortmem addr) :=
  ⟨rfl, Nat.le_of_ble_eq_true rfl, Nat.le_of_ble_eq_true rfl, rfl⟩

theorem subLongmem (addr : Word) : Statement (.subLongmem addr) :=
  ⟨rfl, Nat.le_of_ble_eq_true rfl, Nat.le_of_ble_eq_true rfl, rfl⟩

theorem subAtX : Statement .subAtX :=
  ⟨rfl, Nat.le_of_ble_eq_true rfl, Nat.le_of_ble_eq_true rfl, rfl⟩

theorem subShortoffX (off : Byte) : Statement (.subShortoffX off) :=
  ⟨rfl, Nat.le_of_ble_eq_true rfl, Nat.le_of_ble_eq_true rfl, rfl⟩

theorem subLongoffX (off : Word) : Statement (.subLongoffX off) :=
  ⟨rfl, Nat.le_of_ble_eq_true rfl, Nat.le_of_ble_eq_true rfl, rfl⟩

theorem subAtY : Statement .subAtY :=
  ⟨rfl, Nat.le_of_ble_eq_true rfl, Nat.le_of_ble_eq_true rfl, rfl⟩

theorem subShortoffY (off : Byte) : Statement (.subShortoffY off) :=
  ⟨rfl, Nat.le_of_ble_eq_true rfl, Nat.le_of_ble_eq_true rfl, rfl⟩

theorem subLongoffY (off : Word) : Statement (.subLongoffY off) :=
  ⟨rfl, Nat.le_of_ble_eq_true rfl, Nat.le_of_ble_eq_true rfl, rfl⟩

theorem subShortoffSP (off : Byte) : Statement (.subShortoffSP off) :=
  ⟨rfl, Nat.le_of_ble_eq_true rfl, Nat.le_of_ble_eq_true rfl, rfl⟩

theorem subShortptr (ptr : Byte) : Statement (.subShortptr ptr) :=
  ⟨rfl, Nat.le_of_ble_eq_true rfl, Nat.le_of_ble_eq_true rfl, rfl⟩

theorem subLongptr (ptr : Word) : Statement (.subLongptr ptr) :=
  ⟨rfl, Nat.le_of_ble_eq_true rfl, Nat.le_of_ble_eq_true rfl, rfl⟩

theorem subShortptrX (ptr : Byte) : Statement (.subShortptrX ptr) :=
  ⟨rfl, Nat.le_of_ble_eq_true rfl, Nat.le_of_ble_eq_true rfl, rfl⟩

theorem subLongptrX (ptr : Word) : Statement (.subLongptrX ptr) :=
  ⟨rfl, Nat.le_of_ble_eq_true rfl, Nat.le_of_ble_eq_true rfl, rfl⟩

theorem subShortptrY (ptr : Byte) : Statement (.subShortptrY ptr) :=
  ⟨rfl, Nat.le_of_ble_eq_true rfl, Nat.le_of_ble_eq_true rfl, rfl⟩

theorem subSPByte (imm : Byte) : Statement (.subSPByte imm) :=
  ⟨rfl, Nat.le_of_ble_eq_true rfl, Nat.le_of_ble_eq_true rfl, rfl⟩

end Sys2Proof.Laws.EncodedLength
end

