-- ==== Sys2Proof/Tests/Slice0.lean ====
section
/-! SUPPORT. The model's own tests. Expected results are the spec's: the concrete bytes of 95_test_vectors section 1.2
and the vectors of its sections 2.2 to 2.10; and, for every obligation with hypotheses, states that meet them. -/

namespace Sys2Proof.Tests

open Sys2Proof.Machine

/-! ### Helpers -/

/-- The state after reset with a program at `pc`, its bytes alone in `CODE`. -/
def prog (pc : ExtAddr) (bytes : List Byte) : State :=
  { State.reset with
    pc := pc
    mem := State.reset.mem.writeBytes pc.toNat bytes
    cfg := { resetConfig with code := [⟨pc.toNat, pc.toNat + bytes.length - 1⟩] } }

/-- The state with bytes stored from an address on. -/
def put (s : State) (addr : Nat) (bytes : List Byte) : State := { s with mem := s.mem.writeBytes addr bytes }

/-- The state under another memory map, whose first entry makes one address of another kind. -/
def marking (s : State) (addr : Nat) (kind : MemKind) : State :=
  { s with cfg := { s.cfg with map := ⟨⟨addr, addr⟩, kind⟩ :: s.cfg.map } }

def next? (o : Host.Outcome State Fault Refusal) : Option State :=
  match o with
  | .next t => some t
  | _ => none

def refusal? (o : Host.Outcome State Fault Refusal) : Option Refusal :=
  match o with
  | .refused r => some r
  | _ => none

theorem exists_next {o : Host.Outcome State Fault Refusal} (h : (next? o).isSome = true) : ∃ t, o = .next t := by
  cases o <;> first | exact ⟨_, rfl⟩ | cases h

theorem refused_of {o : Host.Outcome State Fault Refusal} {r : Refusal} (h : refusal? o = some r) :
    o = .refused r := by
  cases o <;> first | (simp only [refusal?, Option.some.injEq] at h; rw [h]) | cases h

/-- A and the flags V, H, N, Z, C after an outcome. -/
def av (o : Host.Outcome State Fault Refusal) : Option (Byte × List Bool) :=
  (next? o).map (fun t => (t.a, [t.flags.v, t.flags.h, t.flags.n, t.flags.z, t.flags.c]))

/-- H set, V, N, Z and C clear: what the vectors of section 2.5 start with. -/
def hSet : Flags := ⟨false, true, true, true, false, false, false⟩

/-- The common start of section 2.8, with a program at 0x008000. -/
def start (bytes : List Byte) : State :=
  put (put { prog 0x008000 bytes with x := 0x1234, y := 0x00F0, sp := 0x03FF } 0x10 [0x20, 0x00]) 0x1000 [0x20, 0x00]

/-- The same with A, and a byte M at the effective address. -/
def operand (bytes : List Byte) (a : Byte) (ea : Nat) (m : Byte) : State :=
  put { start bytes with a := a } ea [m]

/-! ### Well-formedness: every check refuses an ill-formed term -/

theorem test_fits_refuses_ldByte_at_top : (Instr.ldByte 1).fitsAt 0xFFFFFE = false := by decide
theorem test_fits_accepts_ldByte_below_top : (Instr.ldByte 1).fitsAt 0xFFFFFD = true := by decide
theorem test_fits_refuses_jpf_at_top : (Instr.jpfExtmem 0).fitsAt 0xFFFFFC = false := by decide
theorem test_fits_refuses_clrA_at_top : Instr.clrA.fitsAt 0xFFFFFF = false := by decide
theorem test_range_refuses_backwards : AddrRange.wellFormed ⟨0x10, 0x0F⟩ = false := by decide
theorem test_range_refuses_beyond_top : AddrRange.wellFormed ⟨0, 0x1000000⟩ = false := by decide
theorem test_config_refuses_bad_map :
    Config.wellFormed { resetConfig with map := [⟨⟨0, 0x1000000⟩, .ram⟩] } = false := by decide
theorem test_config_refuses_bad_code : Config.wellFormed { resetConfig with code := [⟨2, 1⟩] } = false := by decide
theorem test_config_accepts_reset : Config.wellFormed resetConfig = true := by decide
/-- Every instruction is well-formed: all operand values are legal (R51); there is no ill-formed term to refuse. -/
theorem test_instr_wellFormed : (Instr.jpfExtmem 0xFFFFFF).wellFormed = true := by decide
theorem test_memory_refuses_unsorted : Memory.wf [(2, 1), (1, 1)] = false := by decide
theorem test_memory_refuses_repeat : Memory.wf [(1, 1), (1, 2)] = false := by decide
theorem test_memory_refuses_blank : Memory.wf [(1, 0)] = false := by decide
theorem test_memory_refuses_beyond_top : Memory.wf [(0x1000000, 1)] = false := by decide

/-! ### Decoding: the concrete bytes of section 1.2, one word for every constructor -/

theorem test_decode_add :
    decode [0xAB, 0x55] = .ok (.addByte 0x55, []) ∧
    decode [0xBB, 0x10] = .ok (.addShortmem 0x10, []) ∧
    decode [0xCB, 0x10, 0x00] = .ok (.addLongmem 0x1000, []) ∧
    decode [0xFB] = .ok (.addAtX, []) ∧
    decode [0xEB, 0x10] = .ok (.addShortoffX 0x10, []) ∧
    decode [0xDB, 0x10, 0x00] = .ok (.addLongoffX 0x1000, []) ∧
    decode [0x90, 0xFB] = .ok (.addAtY, []) ∧
    decode [0x90, 0xEB, 0x10] = .ok (.addShortoffY 0x10, []) ∧
    decode [0x90, 0xDB, 0x10, 0x00] = .ok (.addLongoffY 0x1000, []) ∧
    decode [0x1B, 0x10] = .ok (.addShortoffSP 0x10, []) ∧
    decode [0x92, 0xCB, 0x10] = .ok (.addShortptr 0x10, []) ∧
    decode [0x72, 0xCB, 0x10, 0x00] = .ok (.addLongptr 0x1000, []) ∧
    decode [0x92, 0xDB, 0x10] = .ok (.addShortptrX 0x10, []) ∧
    decode [0x72, 0xDB, 0x10, 0x00] = .ok (.addLongptrX 0x1000, []) ∧
    decode [0x91, 0xDB, 0x10] = .ok (.addShortptrY 0x10, []) :=
  ⟨rfl, rfl, rfl, rfl, rfl, rfl, rfl, rfl, rfl, rfl, rfl, rfl, rfl, rfl, rfl⟩

theorem test_decode_ld :
    decode [0xA6, 0x55] = .ok (.ldByte 0x55, []) ∧
    decode [0xB6, 0x50] = .ok (.ldShortmem 0x50, []) ∧
    decode [0xC6, 0x50, 0x00] = .ok (.ldLongmem 0x5000, []) ∧
    decode [0xF6] = .ok (.ldAtX, []) ∧
    decode [0xE6, 0x50] = .ok (.ldShortoffX 0x50, []) ∧
    decode [0xD6, 0x50, 0x00] = .ok (.ldLongoffX 0x5000, []) ∧
    decode [0x90, 0xF6] = .ok (.ldAtY, []) ∧
    decode [0x90, 0xE6, 0x50] = .ok (.ldShortoffY 0x50, []) ∧
    decode [0x90, 0xD6, 0x50, 0x00] = .ok (.ldLongoffY 0x5000, []) ∧
    decode [0x7B, 0x50] = .ok (.ldShortoffSP 0x50, []) ∧
    decode [0x92, 0xC6, 0x50] = .ok (.ldShortptr 0x50, []) ∧
    decode [0x72, 0xC6, 0x50, 0x00] = .ok (.ldLongptr 0x5000, []) ∧
    decode [0x92, 0xD6, 0x50] = .ok (.ldShortptrX 0x50, []) ∧
    decode [0x72, 0xD6, 0x50, 0x00] = .ok (.ldLongptrX 0x5000, []) ∧
    decode [0x91, 0xD6, 0x50] = .ok (.ldShortptrY 0x50, []) :=
  ⟨rfl, rfl, rfl, rfl, rfl, rfl, rfl, rfl, rfl, rfl, rfl, rfl, rfl, rfl, rfl⟩

theorem test_decode_clr :
    decode [0x4F] = .ok (.clrA, []) ∧
    decode [0x3F, 0x10] = .ok (.clrShortmem 0x10, []) ∧
    decode [0x72, 0x5F, 0x10, 0x00] = .ok (.clrLongmem 0x1000, []) ∧
    decode [0x7F] = .ok (.clrAtX, []) ∧
    decode [0x6F, 0x10] = .ok (.clrShortoffX 0x10, []) ∧
    decode [0x72, 0x4F, 0x10, 0x00] = .ok (.clrLongoffX 0x1000, []) ∧
    decode [0x90, 0x7F] = .ok (.clrAtY, []) ∧
    decode [0x90, 0x6F, 0x10] = .ok (.clrShortoffY 0x10, []) ∧
    decode [0x90, 0x4F, 0x10, 0x00] = .ok (.clrLongoffY 0x1000, []) ∧
    decode [0x0F, 0x10] = .ok (.clrShortoffSP 0x10, []) ∧
    decode [0x92, 0x3F, 0x10] = .ok (.clrShortptr 0x10, []) ∧
    decode [0x72, 0x3F, 0x10, 0x00] = .ok (.clrLongptr 0x1000, []) ∧
    decode [0x92, 0x6F, 0x10] = .ok (.clrShortptrX 0x10, []) ∧
    decode [0x72, 0x6F, 0x10, 0x00] = .ok (.clrLongptrX 0x1000, []) ∧
    decode [0x91, 0x6F, 0x10] = .ok (.clrShortptrY 0x10, []) :=
  ⟨rfl, rfl, rfl, rfl, rfl, rfl, rfl, rfl, rfl, rfl, rfl, rfl, rfl, rfl, rfl⟩

theorem test_decode_jpf :
    decode [0xAC, 0x2F, 0xFF, 0xFC] = .ok (.jpfExtmem 0x2FFFFC, []) ∧
    decode [0x92, 0xAC, 0x2F, 0xFC] = .ok (.jpfLongptr 0x2FFC, []) :=
  ⟨rfl, rfl⟩

theorem test_decode_sub :
    decode [0xA0, 0x55] = .ok (.subByte 0x55, []) ∧
    decode [0xB0, 0x10] = .ok (.subShortmem 0x10, []) ∧
    decode [0xC0, 0x10, 0x00] = .ok (.subLongmem 0x1000, []) ∧
    decode [0xF0] = .ok (.subAtX, []) ∧
    decode [0xE0, 0x10] = .ok (.subShortoffX 0x10, []) ∧
    decode [0xD0, 0x10, 0x00] = .ok (.subLongoffX 0x1000, []) ∧
    decode [0x90, 0xF0] = .ok (.subAtY, []) ∧
    decode [0x90, 0xE0, 0x10] = .ok (.subShortoffY 0x10, []) ∧
    decode [0x90, 0xD0, 0x10, 0x00] = .ok (.subLongoffY 0x1000, []) ∧
    decode [0x10, 0x10] = .ok (.subShortoffSP 0x10, []) ∧
    decode [0x92, 0xC0, 0x10] = .ok (.subShortptr 0x10, []) ∧
    decode [0x72, 0xC0, 0x10, 0x00] = .ok (.subLongptr 0x1000, []) ∧
    decode [0x92, 0xD0, 0x10] = .ok (.subShortptrX 0x10, []) ∧
    decode [0x72, 0xD0, 0x10, 0x00] = .ok (.subLongptrX 0x1000, []) ∧
    decode [0x91, 0xD0, 0x10] = .ok (.subShortptrY 0x10, []) ∧
    decode [0x52, 0x09] = .ok (.subSPByte 0x09, []) :=
  ⟨rfl, rfl, rfl, rfl, rfl, rfl, rfl, rfl, rfl, rfl, rfl, rfl, rfl, rfl, rfl, rfl⟩

/-- The word an opcode-table row gives is its `match` (log 22): the first byte is the most significant one. -/
theorem test_table_words :
    decodeTableWord 16 0xAB00 = some (.addByte 0) ∧ decodeTableWord 8 0xFB = some .addAtX ∧
    decodeTableWord 32 0x92AC0000 = some (.jpfLongptr 0) ∧ decodeTableWord 24 0x91DB10 = some (.addShortptrY 0x10) :=
  ⟨rfl, rfl, rfl, rfl⟩

/-- Section 2.9: a sample of the unused first bytes, and a precode after a precode. -/
theorem test_decode_refuses :
    decode [0x00] = .error .notInTable ∧ decode [0x01] = .error .notInTable ∧ decode [0xA1] = .error .notInTable ∧
    decode [0xAD] = .error .notInTable ∧ decode [0xFF] = .error .notInTable ∧
    decode [0x90, 0x90, 0xFB] = .error .notInTable ∧ decode [0x72] = .error .truncated :=
  ⟨rfl, rfl, rfl, rfl, rfl, rfl, rfl⟩

/-! ### One step of each instruction: the effective addresses of section 2.8 with the operands of sections 2.2 to 2.7 -/

theorem test_addByte :
    av (step ({ start [0xAB, 0xCA] with a := 0x3A })) = some (0x04, [false, true, false, false, true]) := by decide

theorem test_addShortmem :
    av (step (operand [0xBB, 0x10] 0x7F 0x10 0x01)) = some (0x80, [true, true, true, false, false]) := by decide

theorem test_addLongmem :
    av (step (operand [0xCB, 0x10, 0x00] 0x80 0x1000 0x80)) = some (0x00, [true, false, false, true, true]) :=
  by decide

theorem test_addAtX :
    av (step (operand [0xFB] 0x90 0x1234 0x90)) = some (0x20, [true, false, false, false, true]) := by decide

theorem test_addShortoffX :
    av (step (operand [0xEB, 0x10] 0xA5 0x1244 0x00)) = some (0xA5, [false, false, true, false, false]) := by decide

theorem test_addLongoffX :
    av (step (operand [0xDB, 0x10, 0x00] 0x0F 0x2234 0x01)) = some (0x10, [false, true, false, false, false]) :=
  by decide

theorem test_addAtY :
    av (step (operand [0x90, 0xFB] 0xC0 0xF0 0xC0)) = some (0x80, [false, false, true, false, true]) := by decide

theorem test_addShortoffY :
    av (step (operand [0x90, 0xEB, 0x10] 0x01 0x100 0xFF)) = some (0x00, [false, true, false, true, true]) :=
  by decide

theorem test_addLongoffY :
    av (step (operand [0x90, 0xDB, 0x10, 0x00] 0x80 0x10F0 0x7F)) = some (0xFF, [false, false, true, false, false]) :=
  by decide

theorem test_addShortoffSP :
    av (step (operand [0x1B, 0x10] 0x40 0x40F 0x40)) = some (0x80, [true, false, true, false, false]) := by decide

theorem test_addShortptr :
    av (step (operand [0x92, 0xCB, 0x10] 0xFF 0x2000 0xFF)) = some (0xFE, [false, true, true, false, true]) :=
  by decide

theorem test_addLongptr :
    av (step (operand [0x72, 0xCB, 0x10, 0x00] 0x3A 0x2000 0xC6)) = some (0x00, [false, true, false, true, true]) :=
  by decide

theorem test_addShortptrX :
    av (step (operand [0x92, 0xDB, 0x10] 0x7F 0x3234 0x7F)) = some (0xFE, [true, true, true, false, false]) :=
  by decide

theorem test_addLongptrX :
    av (step (operand [0x72, 0xDB, 0x10, 0x00] 0xFF 0x3234 0x01)) = some (0x00, [false, true, false, true, true]) :=
  by decide

theorem test_addShortptrY :
    av (step (operand [0x91, 0xDB, 0x10] 0x55 0x20F0 0xAA)) = some (0xFF, [false, false, true, false, false]) :=
  by decide

theorem test_ldByte :
    av (step ({ start [0xA6, 0x00] with a := 0xEE })) = some (0x00, [false, false, false, true, false]) := by decide

theorem test_ldShortmem :
    av (step (operand [0xB6, 0x10] 0xEE 0x10 0x01)) = some (0x01, [false, false, false, false, false]) := by decide

theorem test_ldLongmem :
    av (step (operand [0xC6, 0x10, 0x00] 0xEE 0x1000 0x55)) = some (0x55, [false, false, false, false, false]) :=
  by decide

theorem test_ldAtX :
    av (step (operand [0xF6] 0xEE 0x1234 0x7F)) = some (0x7F, [false, false, false, false, false]) := by decide

theorem test_ldShortoffX :
    av (step (operand [0xE6, 0x10] 0xEE 0x1244 0x80)) = some (0x80, [false, false, true, false, false]) := by decide

theorem test_ldLongoffX :
    av (step (operand [0xD6, 0x10, 0x00] 0xEE 0x2234 0xFF)) = some (0xFF, [false, false, true, false, false]) :=
  by decide

theorem test_ldAtY :
    av (step (operand [0x90, 0xF6] 0xEE 0xF0 0x00)) = some (0x00, [false, false, false, true, false]) := by decide

theorem test_ldShortoffY :
    av (step (operand [0x90, 0xE6, 0x10] 0xEE 0x100 0x01)) = some (0x01, [false, false, false, false, false]) :=
  by decide

theorem test_ldLongoffY :
    av (step (operand [0x90, 0xD6, 0x10, 0x00] 0xEE 0x10F0 0x55)) = some (0x55, [false, false, false, false, false]) :=
  by decide

theorem test_ldShortoffSP :
    av (step (operand [0x7B, 0x10] 0xEE 0x40F 0x7F)) = some (0x7F, [false, false, false, false, false]) := by decide

theorem test_ldShortptr :
    av (step (operand [0x92, 0xC6, 0x10] 0xEE 0x2000 0x80)) = some (0x80, [false, false, true, false, false]) :=
  by decide

theorem test_ldLongptr :
    av (step (operand [0x72, 0xC6, 0x10, 0x00] 0xEE 0x2000 0xFF)) = some (0xFF, [false, false, true, false, false]) :=
  by decide

theorem test_ldShortptrX :
    av (step (operand [0x92, 0xD6, 0x10] 0xEE 0x3234 0x00)) = some (0x00, [false, false, false, true, false]) :=
  by decide

theorem test_ldLongptrX :
    av (step (operand [0x72, 0xD6, 0x10, 0x00] 0xEE 0x3234 0x01)) = some (0x01, [false, false, false, false, false]) :=
  by decide

theorem test_ldShortptrY :
    av (step (operand [0x91, 0xD6, 0x10] 0xEE 0x20F0 0x55)) = some (0x55, [false, false, false, false, false]) :=
  by decide

theorem test_clrShortmem :
    (next? (step (operand [0x3F, 0x10] 0xEE 0x10 0x5A))).map
      (fun t => (t.mem.read 0x10, t.a, t.flags.n, t.flags.z)) = some (0x00, 0xEE, false, true) := by decide

theorem test_clrLongmem :
    (next? (step (operand [0x72, 0x5F, 0x10, 0x00] 0xEE 0x1000 0x5A))).map
      (fun t => (t.mem.read 0x1000, t.a, t.flags.n, t.flags.z)) = some (0x00, 0xEE, false, true) := by decide

theorem test_clrAtX :
    (next? (step (operand [0x7F] 0xEE 0x1234 0x5A))).map
      (fun t => (t.mem.read 0x1234, t.a, t.flags.n, t.flags.z)) = some (0x00, 0xEE, false, true) := by decide

theorem test_clrShortoffX :
    (next? (step (operand [0x6F, 0x10] 0xEE 0x1244 0x5A))).map
      (fun t => (t.mem.read 0x1244, t.a, t.flags.n, t.flags.z)) = some (0x00, 0xEE, false, true) := by decide

theorem test_clrLongoffX :
    (next? (step (operand [0x72, 0x4F, 0x10, 0x00] 0xEE 0x2234 0x5A))).map
      (fun t => (t.mem.read 0x2234, t.a, t.flags.n, t.flags.z)) = some (0x00, 0xEE, false, true) := by decide

theorem test_clrAtY :
    (next? (step (operand [0x90, 0x7F] 0xEE 0xF0 0x5A))).map
      (fun t => (t.mem.read 0xF0, t.a, t.flags.n, t.flags.z)) = some (0x00, 0xEE, false, true) := by decide

theorem test_clrShortoffY :
    (next? (step (operand [0x90, 0x6F, 0x10] 0xEE 0x100 0x5A))).map
      (fun t => (t.mem.read 0x100, t.a, t.flags.n, t.flags.z)) = some (0x00, 0xEE, false, true) := by decide

theorem test_clrLongoffY :
    (next? (step (operand [0x90, 0x4F, 0x10, 0x00] 0xEE 0x10F0 0x5A))).map
      (fun t => (t.mem.read 0x10F0, t.a, t.flags.n, t.flags.z)) = some (0x00, 0xEE, false, true) := by decide

theorem test_clrShortoffSP :
    (next? (step (operand [0x0F, 0x10] 0xEE 0x40F 0x5A))).map
      (fun t => (t.mem.read 0x40F, t.a, t.flags.n, t.flags.z)) = some (0x00, 0xEE, false, true) := by decide

theorem test_clrShortptr :
    (next? (step (operand [0x92, 0x3F, 0x10] 0xEE 0x2000 0x5A))).map
      (fun t => (t.mem.read 0x2000, t.a, t.flags.n, t.flags.z)) = some (0x00, 0xEE, false, true) := by decide

theorem test_clrLongptr :
    (next? (step (operand [0x72, 0x3F, 0x10, 0x00] 0xEE 0x2000 0x5A))).map
      (fun t => (t.mem.read 0x2000, t.a, t.flags.n, t.flags.z)) = some (0x00, 0xEE, false, true) := by decide

theorem test_clrShortptrX :
    (next? (step (operand [0x92, 0x6F, 0x10] 0xEE 0x3234 0x5A))).map
      (fun t => (t.mem.read 0x3234, t.a, t.flags.n, t.flags.z)) = some (0x00, 0xEE, false, true) := by decide

theorem test_clrLongptrX :
    (next? (step (operand [0x72, 0x6F, 0x10, 0x00] 0xEE 0x3234 0x5A))).map
      (fun t => (t.mem.read 0x3234, t.a, t.flags.n, t.flags.z)) = some (0x00, 0xEE, false, true) := by decide

theorem test_clrShortptrY :
    (next? (step (operand [0x91, 0x6F, 0x10] 0xEE 0x20F0 0x5A))).map
      (fun t => (t.mem.read 0x20F0, t.a, t.flags.n, t.flags.z)) = some (0x00, 0xEE, false, true) := by decide

theorem test_subByte :
    av (step { start [0xA0, 0x01] with a := 0x80, flags := hSet }) =
      some (0x7F, [true, true, false, false, false]) := by decide

theorem test_subShortmem :
    av (step { operand [0xB0, 0x10] 0x80 0x10 0x7F with flags := hSet }) =
      some (0x01, [true, true, false, false, false]) := by decide

theorem test_subLongmem :
    av (step { operand [0xC0, 0x10, 0x00] 0x7F 0x1000 0xFF with flags := hSet }) =
      some (0x80, [true, true, true, false, true]) := by decide

theorem test_subAtX :
    av (step { operand [0xF0] 0x7F 0x1234 0x80 with flags := hSet }) =
      some (0xFF, [true, true, true, false, true]) := by decide

theorem test_subShortoffX :
    av (step { operand [0xE0, 0x10] 0x00 0x1244 0x80 with flags := hSet }) =
      some (0x80, [true, true, true, false, true]) := by decide

theorem test_subLongoffX :
    av (step { operand [0xD0, 0x10, 0x00] 0x80 0x2234 0x80 with flags := hSet }) =
      some (0x00, [false, true, false, true, false]) := by decide

theorem test_subAtY :
    av (step { operand [0x90, 0xF0] 0x12 0xF0 0x34 with flags := hSet }) =
      some (0xDE, [false, true, true, false, true]) := by decide

theorem test_subShortoffY :
    av (step { operand [0x90, 0xE0, 0x10] 0xA5 0x100 0x00 with flags := hSet }) =
      some (0xA5, [false, true, true, false, false]) := by decide

theorem test_subLongoffY :
    av (step { operand [0x90, 0xD0, 0x10, 0x00] 0x01 0x10F0 0xFF with flags := hSet }) =
      some (0x02, [false, true, false, false, true]) := by decide

theorem test_subShortoffSP :
    av (step { operand [0x10, 0x10] 0x10 0x40F 0x01 with flags := hSet }) =
      some (0x0F, [false, true, false, false, false]) := by decide

theorem test_subShortptr :
    av (step { operand [0x92, 0xC0, 0x10] 0x55 0x2000 0x55 with flags := hSet }) =
      some (0x00, [false, true, false, true, false]) := by decide

theorem test_subLongptr :
    av (step { operand [0x72, 0xC0, 0x10, 0x00] 0x00 0x2000 0x01 with flags := hSet }) =
      some (0xFF, [false, true, true, false, true]) := by decide

theorem test_subShortptrX :
    av (step { operand [0x92, 0xD0, 0x10] 0x7F 0x3234 0x7E with flags := hSet }) =
      some (0x01, [false, true, false, false, false]) := by decide

theorem test_subLongptrX :
    av (step { operand [0x72, 0xD0, 0x10, 0x00] 0x34 0x3234 0x12 with flags := hSet }) =
      some (0x22, [false, true, false, false, false]) := by decide

theorem test_subShortptrY :
    av (step { operand [0x91, 0xD0, 0x10] 0xFF 0x20F0 0x01 with flags := hSet }) =
      some (0xFE, [false, true, true, false, false]) := by decide

/-- Section 2.4: CLR A keeps V, H and C. -/
theorem test_clrA :
    (next? (step { prog 0xB500 [0x4F] with a := 0xC3, flags := ⟨true, true, true, true, true, false, true⟩ })).map
      (fun t => (t.a, t.flags, t.pc)) = some (0x00, ⟨true, true, true, true, false, true, true⟩, 0xB501) := by decide

/-- Section 2.4: a CLR through a pointer to the pointer's own second byte. -/
theorem test_clrShortptr_own_pointer :
    (next? (step (put (prog 0x8000 [0x92, 0x3F, 0x10]) 0x10 [0x00, 0x11]))).map
      (fun t => (t.mem.read 0x10, t.mem.read 0x11)) = some (0x00, 0x00) := by decide

/-- Section 2.6. -/
theorem test_subSPByte :
    (next? (step (prog 0x8000 [0x52, 0x09]))).map (fun t => (t.sp, t.pc, t.flags)) =
      some (0x03F6, 0x8002, State.reset.flags) ∧
    (next? (step { prog 0x8000 [0x52, 0xFF] with sp := 0x0100 })).map State.sp = some 0x0001 ∧
    (next? (step { prog 0x8000 [0x52, 0xFF] with sp := 0x00FF })).map (fun t => (t.sp, t.flags.z)) =
      some (0x0000, false) := by decide

theorem test_subSPByte_wraps :
    (next? (step { prog 0x8000 [0x52, 0x09] with sp := 0x0005 })).map State.sp = some 0xFFFC ∧
    (next? (step { prog 0x8000 [0x52, 0x01] with sp := 0x0000 })).map State.sp = some 0xFFFF := by decide

/-- Section 2.7. -/
theorem test_jpfExtmem :
    (next? (step (prog 0x8000 [0xAC, 0x2F, 0xFF, 0xFC]))).map State.pc = some 0x2FFFFC ∧
    (next? (step (prog 0x012345 [0xAC, 0x00, 0x00, 0x00]))).map State.pc = some 0x000000 ∧
    (next? (step (prog 0x8000 [0xAC, 0xFF, 0xFF, 0xFF]))).map State.pc = some 0xFFFFFF := by decide

theorem test_jpfLongptr :
    (next? (step (put (prog 0x8000 [0x92, 0xAC, 0x2F, 0xFC]) 0x2FFC [0x01, 0x80, 0x00]))).map State.pc =
      some 0x018000 ∧
    (next? (step (put (prog 0x8000 [0x92, 0xAC, 0xFF, 0xFF]) 0xFFFF [0x12, 0x34, 0x56]))).map State.pc =
      some 0x123456 := by decide

/-- Section 2.8, corner cases: sums carry into bit 16, offsets are unsigned, pointers do not wrap. -/
theorem test_address_corners :
    effectiveAddress { State.reset with x := 0xFFFF } (.shortoffX 0xFF) = 0x0100FE ∧
    effectiveAddress { State.reset with x := 0xFFFF } (.longoffX 0xFFFF) = 0x01FFFE ∧
    effectiveAddress { State.reset with sp := 0xFFFF } (.shortoffSP 0xFF) = 0x0100FE ∧
    effectiveAddress { State.reset with sp := 0x0000 } (.shortoffSP 0xFF) = 0x0000FF ∧
    effectiveAddress { State.reset with x := 0x0100 } (.shortoffX 0x80) = 0x000180 ∧
    effectiveAddress (put State.reset 0 [0x99]) (.shortptr 0xFF) = 0x0000 := by decide

theorem test_pointer_corners :
    effectiveAddress (put (put State.reset 0 [0x99]) 0xFF [0x12, 0x34]) (.shortptr 0xFF) = 0x001234 ∧
    effectiveAddress (put (put State.reset 0 [0x11]) 0xFFFF [0xAB, 0xCD]) (.longptr 0xFFFF) = 0x00ABCD ∧
    effectiveAddress (put { State.reset with x := 0xFFFF } 0x10 [0xFF, 0xFF]) (.shortptrX 0x10) = 0x01FFFE ∧
    effectiveAddress (put { State.reset with y := 0x0001 } 0x10 [0xFF, 0xFF]) (.shortptrY 0x10) = 0x010000 ∧
    effectiveAddress (put State.reset 0x10 [0x34, 0x12]) (.shortptr 0x10) = 0x003412 ∧
    effectiveAddress (put { State.reset with cfg := { resetConfig with pointerOrder := .lsFirst } } 0x10 [0x34, 0x12])
      (.shortptr 0x10) = 0x001234 := by decide

/-- Section 2.10. -/
theorem test_refuses_reads_and_writes :
    refusal? (step (marking (prog 0x8000 [0xB6, 0x10]) 0x10 .absent)) = some .readNotAdmitted ∧
    refusal? (step (marking (prog 0x8000 [0x92, 0xC6, 0x10]) 0x11 .absent)) = some .readNotAdmitted ∧
    refusal? (step (marking (prog 0x8000 [0x3F, 0x10]) 0x10 .rom)) = some .writeNotAdmitted ∧
    refusal? (step (marking { prog 0x8000 [0x7F] with x := 0x4000 } 0x4000 .absent)) = some .writeNotAdmitted ∧
    refusal? (step (prog 0xB200 [0x72, 0x5F, 0xB2, 0x00])) = some .writeToCode := by decide

theorem test_refuses_fetches :
    refusal? (step { prog 0xB500 [0x4F] with pc := 0xB501 }) = some .fetchOutsideCode ∧
    refusal? (step (prog 0x8000 [0xAB])) = some .fetchOutsideCode ∧
    refusal? (step (prog 0x8000 [0x72])) = some .fetchOutsideCode ∧
    refusal? (step (prog 0xFFFFFE [0xA6, 0x01])) = some .pcWrap ∧
    refusal? (step (prog 0xFFFFFF [0x4F])) = some .pcWrap ∧
    refusal? (step (prog 0x8000 [0x90, 0xAB])) = some .notInTable := by decide

theorem test_end_of_address_space :
    (next? (step (prog 0xFFFFFD [0xA6, 0x01]))).map (fun t => (t.a, t.pc)) = some (0x01, 0xFFFFFF) ∧
    isStop { resetConfig with stop := [0xFFFFFF] } 0xFFFFFF = true := by decide

theorem test_code_is_readable_data :
    (next? (step (prog 0x8000 [0xC6, 0x80, 0x00]))).map State.a = some 0xC6 := by decide

/-- Nothing is loaded after reset: the first step is refused until a program is (log 4). -/
theorem test_reset_runs_nothing : refusal? (step State.reset) = some .fetchOutsideCode := by decide

theorem test_withFetchWord_runs :
    (next? (step (State.reset.withFetchWord 16 0xA655))).map State.a = some 0x55 ∧
    (next? (step (State.reset.withFetchWord 32 0xAC2FFFFC))).map State.pc = some 0x2FFFFC := by decide

/-! ### States that meet the hypotheses of the obligations, clause by clause -/

/-- LD A,#1 and then CLR $10, in `CODE`, no stop address. -/
def twoSteps : State := put (prog 0x8000 [0xA6, 0x01, 0x3F, 0x10]) 0x10 [0x5A]

/-- Both index registers at their top, under both cautious readings. -/
def cautious : State :=
  { State.reset with
    x := 0xFFFF, y := 0xFFFF, sp := 8, cfg := { resetConfig with eaPolicy := .refuse, spPolicy := .refuse } }

theorem room_of {s : State} {len : Nat} (h : decide (s.pc.toNat + len ≤ 0xFFFFFF) = true) : s.hasRoom len :=
  of_decide_eq_true (p := _ ≤ _) h

theorem noRoom_of {s : State} {len : Nat} (h : decide (s.pc.toNat + len ≤ 0xFFFFFF) = false) : ¬ s.hasRoom len :=
  of_decide_eq_false (p := _ ≤ _) h

theorem notFinal_of {s : State} (h : isStop s.cfg s.pc = false) : ¬ s.final := by simp [State.final, h]

theorem reset_plainRam : plainRam State.reset.cfg := by
  refine ⟨fun addr h => ?_, rfl, rfl⟩
  simp [kindAt, State.reset, resetConfig, mapKind, AddrRange.contains, topAddress, h]

theorem test_meets_EncodeDecode : decode [0x90, 0xFB, 0x12] = .ok (.addAtY, [0x12]) := rfl

theorem test_meets_TableCounts : isPrecode 0x90 = true := by decide

theorem test_meets_StepRunsDecoded :
    ¬ (prog 0xFFFFFD [0xA6, 0x01]).final ∧ (Instr.ldByte 1).wellFormed = true ∧
    (prog 0xFFFFFD [0xA6, 0x01]).hasRoom (Instr.ldByte 1).length ∧
    (∀ k, k < (Instr.ldByte 1).length →
      inCode (prog 0xFFFFFD [0xA6, 0x01]).cfg ((prog 0xFFFFFD [0xA6, 0x01]).pc.toNat + k) = true) ∧
    decode ((prog 0xFFFFFD [0xA6, 0x01]).mem.readBytes (prog 0xFFFFFD [0xA6, 0x01]).pc.toNat 4) =
      .ok (.ldByte 1, [0, 0]) :=
  ⟨notFinal_of rfl, rfl, room_of (by decide), by decide, rfl⟩

theorem test_meets_NextOnlyFromCode : ∃ t, step twoSteps = .next t := exists_next (by decide)

theorem test_meets_StopIsTheOnlyFault :
    ({ State.reset with cfg := { resetConfig with stop := [0x008000] } } : State).final := rfl

/-- Clauses 1 to 3: PC outside `CODE`; a precode at the top; the byte after a precode outside `CODE`. -/
theorem test_meets_FetchRefusalOrder_head :
    (¬ State.reset.final ∧ inCode State.reset.cfg State.reset.pc.toNat = false) ∧
    (¬ (prog 0xFFFFFF [0x90]).final ∧ inCode (prog 0xFFFFFF [0x90]).cfg (prog 0xFFFFFF [0x90]).pc.toNat = true ∧
      isPrecode ((prog 0xFFFFFF [0x90]).mem.read (prog 0xFFFFFF [0x90]).pc.toNat) = true ∧
      (prog 0xFFFFFF [0x90]).pc.toNat = 0xFFFFFF) ∧
    (¬ (prog 0xFFFFFE [0x90]).final ∧ inCode (prog 0xFFFFFE [0x90]).cfg (prog 0xFFFFFE [0x90]).pc.toNat = true ∧
      isPrecode ((prog 0xFFFFFE [0x90]).mem.read (prog 0xFFFFFE [0x90]).pc.toNat) = true ∧
      (prog 0xFFFFFE [0x90]).pc.toNat < 0xFFFFFF ∧
      inCode (prog 0xFFFFFE [0x90]).cfg ((prog 0xFFFFFE [0x90]).pc.toNat + 1) = false) :=
  ⟨⟨notFinal_of rfl, rfl⟩, ⟨notFinal_of rfl, rfl, rfl, rfl⟩, ⟨notFinal_of rfl, rfl, rfl, by decide, rfl⟩⟩

/-- Clauses 4 and 5: a pair in no row, after a precode and alone. -/
theorem test_meets_FetchRefusalOrder_row :
    (¬ (prog 0xFFFFFE [0x90, 0xAB]).final ∧
      inCode (prog 0xFFFFFE [0x90, 0xAB]).cfg (prog 0xFFFFFE [0x90, 0xAB]).pc.toNat = true ∧
      isPrecode ((prog 0xFFFFFE [0x90, 0xAB]).mem.read (prog 0xFFFFFE [0x90, 0xAB]).pc.toNat) = true ∧
      (prog 0xFFFFFE [0x90, 0xAB]).pc.toNat < 0xFFFFFF ∧
      inCode (prog 0xFFFFFE [0x90, 0xAB]).cfg ((prog 0xFFFFFE [0x90, 0xAB]).pc.toNat + 1) = true ∧
      findRow (some ((prog 0xFFFFFE [0x90, 0xAB]).mem.read (prog 0xFFFFFE [0x90, 0xAB]).pc.toNat))
        ((prog 0xFFFFFE [0x90, 0xAB]).mem.read ((prog 0xFFFFFE [0x90, 0xAB]).pc.toNat + 1)) = none) ∧
    (¬ (prog 0xFFFFFF [0x5F]).final ∧ inCode (prog 0xFFFFFF [0x5F]).cfg (prog 0xFFFFFF [0x5F]).pc.toNat = true ∧
      isPrecode ((prog 0xFFFFFF [0x5F]).mem.read (prog 0xFFFFFF [0x5F]).pc.toNat) = false ∧
      findRow none ((prog 0xFFFFFF [0x5F]).mem.read (prog 0xFFFFFF [0x5F]).pc.toNat) = none) :=
  ⟨⟨notFinal_of rfl, rfl, rfl, by decide, rfl, by decide⟩, ⟨notFinal_of rfl, rfl, rfl, by decide⟩⟩

/-- Clauses 6 and 7: no room for the row found; the last byte outside `CODE` where the instruction just fits. -/
theorem test_meets_FetchRefusalOrder_rest :
    (¬ (prog 0xFFFFFE [0x90, 0xFB]).final ∧
      inCode (prog 0xFFFFFE [0x90, 0xFB]).cfg (prog 0xFFFFFE [0x90, 0xFB]).pc.toNat = true ∧
      decode ((prog 0xFFFFFE [0x90, 0xFB]).mem.readBytes (prog 0xFFFFFE [0x90, 0xFB]).pc.toNat 4) =
        .ok (.addAtY, [0, 0]) ∧
      (prog 0xFFFFFE [0x90, 0xFB]).pc.toNat < 0xFFFFFF ∧
      inCode (prog 0xFFFFFE [0x90, 0xFB]).cfg ((prog 0xFFFFFE [0x90, 0xFB]).pc.toNat + 1) = true ∧
      0xFFFFFF < (prog 0xFFFFFE [0x90, 0xFB]).pc.toNat + Instr.addAtY.length) ∧
    (¬ (prog 0xFFFFFD [0xAB]).final ∧ inCode (prog 0xFFFFFD [0xAB]).cfg (prog 0xFFFFFD [0xAB]).pc.toNat = true ∧
      decode ((prog 0xFFFFFD [0xAB]).mem.readBytes (prog 0xFFFFFD [0xAB]).pc.toNat 4) = .ok (.addByte 0, [0, 0]) ∧
      isPrecode ((prog 0xFFFFFD [0xAB]).mem.read (prog 0xFFFFFD [0xAB]).pc.toNat) = false ∧
      (prog 0xFFFFFD [0xAB]).pc.toNat + (Instr.addByte 0).length ≤ 0xFFFFFF ∧
      ∃ k, k < (Instr.addByte 0).length ∧
        inCode (prog 0xFFFFFD [0xAB]).cfg ((prog 0xFFFFFD [0xAB]).pc.toNat + k) = false) :=
  ⟨⟨notFinal_of rfl, rfl, rfl, by decide, rfl, by decide⟩,
    ⟨notFinal_of rfl, rfl, rfl, rfl, by decide, 1, by decide, rfl⟩⟩

/-- The two optional refusals, and one of the others. -/
theorem test_meets_OutcomesAreClosed :
    step State.reset = .refused .fetchOutsideCode ∧
    step { prog 0x8000 [0xF6] with
      x := 0xFFFF, cfg := { (prog 0x8000 [0xF6]).cfg with eaPolicy := .refuse, map := [] } } =
        .refused .readNotAdmitted ∧
    step { prog 0x8000 [0xE6, 0x01] with
      x := 0xFFFF, cfg := { (prog 0x8000 [0xE6, 0x01]).cfg with eaPolicy := .refuse } } = .refused .eaCarry ∧
    step { prog 0x8000 [0x52, 0x01] with
      sp := 0, cfg := { (prog 0x8000 [0x52, 0x01]).cfg with spPolicy := .refuse } } = .refused .spWrap :=
  ⟨refused_of (by decide), refused_of (by decide), refused_of (by decide), refused_of (by decide)⟩

/-- Both sides of the boundary, for a jump that does not use the next address. -/
theorem test_meets_PcWrapExactly :
    exec (.jpfExtmem 0) { State.reset with pc := 0xFFFFFC } = .refused .pcWrap ∧
    ∃ t, exec (.jpfExtmem 0) { State.reset with pc := 0xFFFFFB } = .next t :=
  ⟨refused_of (by decide), exists_next (by decide)⟩

theorem test_meets_PointersAreMostSignificantFirst :
    State.reset.cfg.pointerOrder = .msFirst ∧
    ({ State.reset with cfg := { resetConfig with pointerOrder := .lsFirst } } : State).cfg.pointerOrder = .lsFirst :=
  ⟨rfl, rfl⟩

/-- One address of each kind, and one beyond the address space; a region that holds an address, and one that does not. -/
theorem test_meets_MapKindsDecideAccess :
    kindAt resetConfig 0xFFFFFF = .ram ∧ kindAt (marking State.reset 0x10 .rom).cfg 0x10 = .rom ∧
    kindAt (marking State.reset 0x10 .absent).cfg 0x10 = .absent ∧ kindAt resetConfig 0x1000000 = .absent ∧
    (0x10 ≤ 0x10 ∧ 0x10 ≤ 0x10) ∧ ¬ (0x10 ≤ 0x11 ∧ 0x11 ≤ 0x10) ∧
    kindAt (marking State.reset 0x10 .rom).cfg 0x11 = .ram := by decide

theorem test_meets_AddressRanges :
    pointerAddress (.shortptr 0xFF) = some 0xFF ∧ pointerAddress (.longptrX 0xFFFF) = some 0xFFFF ∧
    ∃ b : Byte, MemForm.shortptr 0xFF = .shortptr b ∨ MemForm.shortptr 0xFF = .shortptrX b ∨
      MemForm.shortptr 0xFF = .shortptrY b :=
  ⟨rfl, rfl, 0xFF, .inl rfl⟩

theorem admitted_of_plain {f : MemForm} (hp : pointerAddress f = none) (s : State) (h : s.cfg.eaPolicy = .carry) :
    addressAdmitted s f := ⟨fun p hp' => (by rw [hp] at hp'; cases hp'), .inl h⟩

/-- The highest address data can reach, and an instruction that just fits. -/
theorem test_meets_AddCompletes :
    ({ State.reset with pc := 0xFFFFFC, x := 0xFFFF } : State).hasRoom (addInstr (.mem (.longoffX 0xFFFF))).length ∧
    sourceAdmitted { State.reset with pc := 0xFFFFFC, x := 0xFFFF } (.mem (.longoffX 0xFFFF)) :=
  ⟨room_of (by decide), admitted_of_plain rfl _ rfl, by decide⟩

theorem test_meets_LoadCompletes :
    ({ State.reset with pc := 0xFFFFFC } : State).hasRoom (ldInstr (.mem (.shortptr 0xFF))).length ∧
    sourceAdmitted { State.reset with pc := 0xFFFFFC } (.mem (.shortptr 0xFF)) :=
  ⟨room_of (by decide), ⟨fun p h => by (cases h; decide), .inl rfl⟩, by decide⟩

theorem test_meets_SubtractCompletes :
    ({ State.reset with pc := 0xFFFFFD } : State).hasRoom (subInstr (.imm 0x80)).length ∧
    sourceAdmitted { State.reset with pc := 0xFFFFFD } (.imm 0x80) := ⟨room_of (by decide), trivial⟩

/-- A pointer byte absent; a sum of 0x010000 under the cautious reading; the data byte absent. -/
theorem test_meets_SourceRefusals :
    ((marking State.reset 0x11 .absent).hasRoom (ldInstr (.mem (.shortptr 0x10))).length ∧
      pointerAddress (.shortptr 0x10) = some 0x10 ∧
      readable (marking State.reset 0x11 .absent).cfg (0x10 + 1) = false) ∧
    (cautious.hasRoom (ldInstr (.mem (.shortoffX 0x01))).length ∧ pointerAddress (.shortoffX 0x01) = none ∧
      cautious.cfg.eaPolicy = .refuse ∧ 0x10000 ≤ effectiveAddress cautious (.shortoffX 0x01)) ∧
    ((marking State.reset 0x10 .absent).hasRoom (ldInstr (.mem (.shortmem 0x10))).length ∧
      addressAdmitted (marking State.reset 0x10 .absent) (.shortmem 0x10) ∧
      readable (marking State.reset 0x10 .absent).cfg
        (effectiveAddress (marking State.reset 0x10 .absent) (.shortmem 0x10)) = false) :=
  ⟨⟨room_of (by decide), rfl, by decide⟩, ⟨room_of (by decide), rfl, rfl, by decide⟩,
    ⟨room_of (by decide), admitted_of_plain rfl _ rfl, by decide⟩⟩

/-- A data byte in ROM, and one in RAM. -/
theorem test_meets_SourceRefusals_kinds :
    (addressAdmitted (marking State.reset 0x10 .rom) (.shortmem 0x10) ∧
      kindAt (marking State.reset 0x10 .rom).cfg
        (effectiveAddress (marking State.reset 0x10 .rom) (.shortmem 0x10)) = .rom) ∧
    (addressAdmitted State.reset (.shortmem 0x10) ∧
      kindAt State.reset.cfg (effectiveAddress State.reset (.shortmem 0x10)) = .ram) :=
  ⟨⟨admitted_of_plain rfl _ rfl, by decide⟩, ⟨admitted_of_plain rfl _ rfl, by decide⟩⟩

/-- Section 2.5: SUB of 0x80 from 0 overflows, ADD of 0x80 to 0 does not. -/
theorem test_meets_SubIsNotAddOfNegation :
    (State.reset.flags.afterSub 0x00 0x80).v = true ∧ (State.reset.flags.afterAdd 0x00 0x80).v = false ∧
    (State.reset.flags.afterSub 0x12 0x34).c = true ∧ (State.reset.flags.afterAdd 0x12 (-0x34)).c = false ∧
    (State.reset.flags.afterSub 0x12 0x00).c = false ∧ (State.reset.flags.afterAdd 0x12 (-0x00)).c = false := by
  decide

/-- Each instruction rule completes on the state after reset: what the flag rules, FlagsAreNeverRead,
AccumulatorUse, the frames and PcAdvancesByLength suppose. -/
theorem test_meets_rules_that_complete :
    (∃ t, exec (addInstr (.mem .atX)) State.reset = .next t) ∧
    (∃ t, exec (ldInstr (.mem (.shortptrY 0x10))) State.reset = .next t) ∧
    (∃ t, exec (subInstr (.imm 0x80)) State.reset = .next t) ∧ (∃ t, exec .clrA State.reset = .next t) ∧
    (∃ t, exec (clrInstr (.longptrX 0x1000)) State.reset = .next t) ∧
    (∃ t, exec (.jpfExtmem 0xFFFFFF) State.reset = .next t) ∧ (∃ t, exec (.jpfLongptr 0xFFFF) State.reset = .next t) ∧
    (∃ t, exec (.subSPByte 0xFF) State.reset = .next t) :=
  ⟨exists_next (by decide), exists_next (by decide), exists_next (by decide), exists_next (by decide),
    exists_next (by decide), exists_next (by decide), exists_next (by decide), exists_next (by decide)⟩

/-- CLR A and JPF are none of the instructions that the flag rules and AccumulatorUse shut out. -/
theorem test_meets_rules_of_others :
    (∀ src, Instr.clrA ≠ addInstr src ∧ Instr.clrA ≠ subInstr src ∧ Instr.clrA ≠ ldInstr src) ∧
    (∀ src, Instr.jpfExtmem 0 ≠ addInstr src ∧ Instr.jpfExtmem 0 ≠ subInstr src ∧ Instr.jpfExtmem 0 ≠ ldInstr src) ∧
    Instr.jpfExtmem 0 ≠ .clrA :=
  ⟨fun _ => ⟨ne_of_ruleNumber (by simp), ne_of_ruleNumber (by simp), ne_of_ruleNumber (by simp)⟩,
    fun _ => ⟨ne_of_ruleNumber (by simp), ne_of_ruleNumber (by simp), ne_of_ruleNumber (by simp)⟩, nofun⟩

theorem test_meets_AccumulatorUse_refused :
    exec (ldInstr (.mem (.shortmem 0x10))) (marking State.reset 0x10 .absent) = .refused .readNotAdmitted :=
  refused_of (by decide)

theorem test_meets_PcAdvancesByLength :
    (∃ t, exec (.subSPByte 1) { State.reset with pc := 0xFFFFFD } = .next t) ∧
    (∀ target, Instr.subSPByte 1 ≠ .jpfExtmem target) ∧ (∀ p, Instr.subSPByte 1 ≠ .jpfLongptr p) :=
  ⟨exists_next (by decide), nofun, nofun⟩

/-- At the last address where it fits, at the one after, and as a step in, at the end of and outside `CODE`. -/
theorem test_meets_ClearACompletes :
    ({ State.reset with pc := 0xFFFFFE } : State).hasRoom 1 ∧
    ¬ ({ State.reset with pc := 0xFFFFFF } : State).hasRoom 1 ∧
    (¬ (prog 0xFFFFFE [0x4F]).final ∧ (prog 0xFFFFFE [0x4F]).mem.read (prog 0xFFFFFE [0x4F]).pc.toNat = 0x4F ∧
      inCode (prog 0xFFFFFE [0x4F]).cfg (prog 0xFFFFFE [0x4F]).pc.toNat = true ∧ (prog 0xFFFFFE [0x4F]).hasRoom 1) ∧
    (¬ (prog 0xFFFFFF [0x4F]).final ∧ (prog 0xFFFFFF [0x4F]).mem.read (prog 0xFFFFFF [0x4F]).pc.toNat = 0x4F ∧
      inCode (prog 0xFFFFFF [0x4F]).cfg (prog 0xFFFFFF [0x4F]).pc.toNat = true ∧ ¬ (prog 0xFFFFFF [0x4F]).hasRoom 1) ∧
    (¬ (put State.reset 0x8000 [0x4F]).final ∧
      (put State.reset 0x8000 [0x4F]).mem.read (put State.reset 0x8000 [0x4F]).pc.toNat = 0x4F ∧
      inCode (put State.reset 0x8000 [0x4F]).cfg (put State.reset 0x8000 [0x4F]).pc.toNat = false) :=
  ⟨room_of (by decide), noRoom_of (by decide), ⟨notFinal_of rfl, rfl, rfl, room_of (by decide)⟩,
    ⟨notFinal_of rfl, rfl, rfl, noRoom_of (by decide)⟩, ⟨notFinal_of rfl, rfl, rfl⟩⟩

theorem test_meets_ClearMemoryCompletes :
    ({ State.reset with x := 0xFFFF } : State).hasRoom (clrInstr (.longoffX 0xFFFF)).length ∧
    destAdmitted { State.reset with x := 0xFFFF } (.longoffX 0xFFFF) :=
  ⟨room_of (by decide), admitted_of_plain rfl _ rfl, by decide, by decide⟩

/-- A pointer byte absent; a sum of 0x010000 under the cautious reading; a destination in `CODE`; one in ROM. -/
theorem test_meets_ClearRefusals :
    ((marking State.reset 0x10 .absent).hasRoom (clrInstr (.longptr 0x10)).length ∧
      pointerAddress (.longptr 0x10) = some 0x10 ∧
      readable (marking State.reset 0x10 .absent).cfg 0x10 = false) ∧
    (cautious.hasRoom (clrInstr (.shortoffY 0x01)).length ∧ pointerAddress (.shortoffY 0x01) = none ∧
      cautious.cfg.eaPolicy = .refuse ∧ 0x10000 ≤ effectiveAddress cautious (.shortoffY 0x01)) ∧
    ((prog 0x8000 [0x4F]).hasRoom (clrInstr (.longmem 0x8000)).length ∧
      addressAdmitted (prog 0x8000 [0x4F]) (.longmem 0x8000) ∧
      inCode (prog 0x8000 [0x4F]).cfg (effectiveAddress (prog 0x8000 [0x4F]) (.longmem 0x8000)) = true) ∧
    ((marking State.reset 0x10 .rom).hasRoom (clrInstr (.shortmem 0x10)).length ∧
      addressAdmitted (marking State.reset 0x10 .rom) (.shortmem 0x10) ∧
      inCode (marking State.reset 0x10 .rom).cfg (effectiveAddress (marking State.reset 0x10 .rom) (.shortmem 0x10)) =
        false ∧
      writable (marking State.reset 0x10 .rom).cfg
        (effectiveAddress (marking State.reset 0x10 .rom) (.shortmem 0x10)) = false) :=
  ⟨⟨room_of (by decide), rfl, by decide⟩, ⟨room_of (by decide), rfl, rfl, by decide⟩,
    ⟨room_of (by decide), admitted_of_plain rfl _ rfl, by decide⟩,
    ⟨room_of (by decide), admitted_of_plain rfl _ rfl, by decide, by decide⟩⟩

/-- The byte a CLR clears, as another form reaches it. -/
theorem test_meets_LoadAfterClearReadsZero_two_forms :
    ∃ t, exec (clrInstr (.shortmem 0x10)) twoSteps = .next t ∧ t.hasRoom (ldInstr (.mem (.longmem 0x10))).length ∧
      addressAdmitted t (.longmem 0x10) ∧
      effectiveAddress t (.longmem 0x10) = effectiveAddress twoSteps (.shortmem 0x10) :=
  ⟨_, rfl, room_of (by decide), admitted_of_plain rfl _ rfl, rfl⟩

/-- A form without a pointer; a pointer form whose address is next to its pointer, on either side. -/
theorem test_meets_LoadAfterClearReadsZero_same_form :
    (pointerAddress (.shortmem 0x10) = none ∧ (next? (exec (clrInstr (.shortmem 0x10)) twoSteps)).map
      (fun t => decide (t.pc.toNat + (ldInstr (.mem (.shortmem 0x10))).length ≤ 0xFFFFFF)) = some true) ∧
    (pointerAddress (.shortptr 0x10) = some 0x10 ∧
      effectiveAddress (put State.reset 0x10 [0x00, 0x12]) (.shortptr 0x10) = 0x12 ∧
      effectiveAddress (put State.reset 0x10 [0x00, 0x0F]) (.shortptr 0x10) = 0x0F ∧
      (next? (exec (clrInstr (.shortptr 0x10)) (put State.reset 0x10 [0x00, 0x12]))).map
        (fun t => decide (t.pc.toNat + (ldInstr (.mem (.shortptr 0x10))).length ≤ 0xFFFFFF)) = some true ∧
      (next? (exec (clrInstr (.shortptr 0x10)) (put State.reset 0x10 [0x00, 0x0F]))).map
        (fun t => decide (t.pc.toNat + (ldInstr (.mem (.shortptr 0x10))).length ≤ 0xFFFFFF)) = some true) := by
  decide

/-- X at 0x10, and a pointer of 0 there, most significant byte first. -/
def ownFirst : State := { State.reset with x := 0x10 }

/-- The same with X one higher, so that the address is the pointer's second byte. -/
def ownSecond : State := { State.reset with x := 0x11 }

/-- A pointer to its own first byte, least significant byte first. -/
def ownFirstLs : State :=
  put { State.reset with cfg := { resetConfig with pointerOrder := .lsFirst } } 0x10 [0x10, 0x00]

/-- An indexed form that clears its pointer's first byte, and its second; a plain form in the other byte order. -/
theorem test_meets_ClearReadsPointerFirst :
    (pointerAddress (.shortptrX 0x10) = some 0x10 ∧ ownFirst.hasRoom (clrInstr (.shortptrX 0x10)).length ∧
      destAdmitted ownFirst (.shortptrX 0x10) ∧ ownFirst.cfg.pointerOrder = .msFirst ∧
      0x100 * (ownFirst.mem.read 0x10).toNat + (ownFirst.mem.read 0x11).toNat + ownFirst.x.toNat = 0x10) ∧
    (ownSecond.hasRoom (clrInstr (.shortptrX 0x10)).length ∧
      destAdmitted ownSecond (.shortptrX 0x10) ∧ ownSecond.cfg.pointerOrder = .msFirst ∧
      0x100 * (ownSecond.mem.read 0x10).toNat + (ownSecond.mem.read 0x11).toNat + ownSecond.x.toNat = 0x10 + 1) ∧
    (pointerAddress (.longptr 0x10) = some 0x10 ∧ ownFirstLs.hasRoom (clrInstr (.longptr 0x10)).length ∧
      destAdmitted ownFirstLs (.longptr 0x10) ∧ ownFirstLs.cfg.pointerOrder = .lsFirst ∧
      (ownFirstLs.mem.read 0x10).toNat + 0x100 * (ownFirstLs.mem.read 0x11).toNat + 0 = 0x10) :=
  ⟨⟨rfl, room_of (by decide), ⟨⟨fun p h => by (cases h; decide), .inl rfl⟩, by decide, by decide⟩, rfl, by decide⟩,
    ⟨room_of (by decide), ⟨⟨fun p h => by (cases h; decide), .inl rfl⟩, by decide, by decide⟩, rfl, by decide⟩,
    ⟨rfl, room_of (by decide), ⟨⟨fun p h => by (cases h; decide), .inl rfl⟩, by decide, by decide⟩, rfl,
      by decide⟩⟩

/-- A jump in `CODE` with room for it, one whose last byte is outside `CODE`, one without room, and a target outside. -/
theorem test_meets_JumpFarCompletes :
    (¬ (prog 0xFFFFFB [0xAC, 0x2F, 0xFF, 0xFC]).final ∧
      (prog 0xFFFFFB [0xAC, 0x2F, 0xFF, 0xFC]).mem.readBytes 0xFFFFFB 4 = encode (.jpfExtmem 0x2FFFFC) ∧
      (prog 0xFFFFFB [0xAC, 0x2F, 0xFF, 0xFC]).hasRoom 4 ∧
      ∀ k, k < 4 → inCode (prog 0xFFFFFB [0xAC, 0x2F, 0xFF, 0xFC]).cfg (0xFFFFFB + k) = true) ∧
    (¬ (put (prog 0x8000 [0xAC, 0x2F, 0xFF]) 0x8003 [0xFC]).final ∧
      (put (prog 0x8000 [0xAC, 0x2F, 0xFF]) 0x8003 [0xFC]).mem.readBytes 0x8000 4 = encode (.jpfExtmem 0x2FFFFC) ∧
      (put (prog 0x8000 [0xAC, 0x2F, 0xFF]) 0x8003 [0xFC]).hasRoom 4 ∧
      ∃ k, k < 4 ∧ inCode (put (prog 0x8000 [0xAC, 0x2F, 0xFF]) 0x8003 [0xFC]).cfg (0x8000 + k) = false) ∧
    (¬ (prog 0xFFFFFC [0xAC, 0x2F, 0xFF, 0xFC]).final ∧ ¬ (prog 0xFFFFFC [0xAC, 0x2F, 0xFF, 0xFC]).hasRoom 4 ∧
      (prog 0xFFFFFC [0xAC, 0x2F, 0xFF, 0xFC]).mem.readBytes 0xFFFFFC 4 = encode (.jpfExtmem 0x2FFFFC) ∧
      inCode (prog 0xFFFFFC [0xAC, 0x2F, 0xFF, 0xFC]).cfg 0xFFFFFC = true) ∧
    (¬ ({ State.reset with pc := 0x2FFFFC } : State).final ∧ inCode State.reset.cfg 0x2FFFFC = false) :=
  ⟨⟨notFinal_of rfl, rfl, room_of (by decide), by decide⟩,
    ⟨notFinal_of rfl, rfl, room_of (by decide), 3, by decide, by decide⟩,
    ⟨notFinal_of rfl, noRoom_of (by decide), rfl, by decide⟩, ⟨notFinal_of rfl, rfl⟩⟩

/-- The pointer at the top of the 16-bit addresses; a pointer byte absent; no room. -/
theorem test_meets_JumpFarIndirectCompletes :
    (State.reset.hasRoom 4 ∧ readable State.reset.cfg 0xFFFF = true ∧
      readable State.reset.cfg (0xFFFF + 1) = true ∧ readable State.reset.cfg (0xFFFF + 2) = true) ∧
    ((marking State.reset 0x10001 .absent).hasRoom 4 ∧
      readable (marking State.reset 0x10001 .absent).cfg (0xFFFF + 2) = false) ∧
    ¬ ({ State.reset with pc := 0xFFFFFC } : State).hasRoom 4 :=
  ⟨⟨room_of (by decide), by decide, by decide, by decide⟩, ⟨room_of (by decide), by decide⟩,
    noRoom_of (by decide)⟩

theorem test_meets_JumpToSelfRunsForEver :
    ¬ (prog 0x8000 [0xAC, 0x00, 0x80, 0x00]).final ∧ (prog 0x8000 [0xAC, 0x00, 0x80, 0x00]).hasRoom 4 ∧
    (prog 0x8000 [0xAC, 0x00, 0x80, 0x00]).mem.readBytes (prog 0x8000 [0xAC, 0x00, 0x80, 0x00]).pc.toNat 4 =
      encode (.jpfExtmem (prog 0x8000 [0xAC, 0x00, 0x80, 0x00]).pc) ∧
    ∀ k, k < 4 → inCode (prog 0x8000 [0xAC, 0x00, 0x80, 0x00]).cfg
      ((prog 0x8000 [0xAC, 0x00, 0x80, 0x00]).pc.toNat + k) = true :=
  ⟨notFinal_of rfl, room_of (by decide), rfl, by decide⟩

/-- Equality of SP and the byte under the cautious reading, and one below it. -/
theorem test_meets_SubtractSPCompletes :
    ({ State.reset with pc := 0xFFFFFD } : State).hasRoom 2 ∧ State.reset.cfg.spPolicy = .wrap ∧
    (cautious.hasRoom 2 ∧ (8 : Byte).toNat ≤ cautious.sp.toNat) ∧
    (cautious.hasRoom 2 ∧ cautious.cfg.spPolicy = .refuse ∧ cautious.sp.toNat < (9 : Byte).toNat) ∧
    ¬ ({ State.reset with pc := 0xFFFFFE } : State).hasRoom 2 :=
  ⟨room_of (by decide), rfl, ⟨room_of (by decide), by decide⟩, ⟨room_of (by decide), rfl, by decide⟩,
    noRoom_of (by decide)⟩

theorem test_meets_EveryInstructionCompletesOnPlainRam :
    plainRam State.reset.cfg ∧ (Instr.clrLongmem 0x8000).fitsAt State.reset.pc = true ∧
    ∀ f, Instr.clrLongmem 0x8000 = clrInstr f → inCode State.reset.cfg (effectiveAddress State.reset f) = false :=
  ⟨reset_plainRam, by decide, fun _ _ => rfl⟩

theorem test_meets_FrameOfClearMemory :
    (next? (exec (clrInstr (.shortmem 0x10)) twoSteps)).map (fun t => t.mem.read 0x10) = some 0 ∧
    twoSteps.mem.read 0x10 = 0x5A := by decide

theorem test_meets_StepKeepsMemoryCanonical : twoSteps.mem.wf = true ∧ ∃ t, step twoSteps = .next t :=
  ⟨by decide, exists_next (by decide)⟩

/-- A run of two steps, the second of which clears a byte: what the statements about runs suppose. -/
theorem test_meets_runs :
    (∃ t, run 2 twoSteps = .next t) ∧ (next? (run 2 twoSteps)).map (fun t => t.mem.read 0x10) = some 0 ∧
    inCode twoSteps.cfg 0x8003 = true ∧ run 1 State.reset = .refused .fetchOutsideCode ∧
    run 1 { State.reset with cfg := { resetConfig with stop := [0x8000] } } = .fault .final :=
  ⟨exists_next (by decide), by decide, by decide, refused_of (by decide), rfl⟩

theorem test_meets_LaunchedRunStaysLegal : twoSteps.launchable ∧ ∃ t, run 2 twoSteps = .next t := by
  refine ⟨⟨fun addr h => ?_, by decide, .inl (by decide)⟩, exists_next (by decide)⟩
  have ha : addr ≤ topAddress := by
    simp [twoSteps, put, prog, inCode, AddrRange.contains] at h
    simp only [topAddress]
    omega
  simp [readable, kindAt, twoSteps, put, prog, resetConfig, mapKind, AddrRange.contains, ha]

end Sys2Proof.Tests
end

section
/-! The flags and A: which instruction writes which flag and with what, that no instruction and no run reads a flag,
and what A is used for (R10, R16 to R22). -/

namespace Sys2Proof.Machine

/-! ### Operands under another A and other flags -/

section
variable (s : State)

@[simp] theorem sourceByte_withFlags (f : Flags) (src : Source) :
    sourceByte (s.withFlags f) src = sourceByte s src := sourceByte_withAFlags s s.a f src

@[simp] theorem sourceByte_withA (v : Byte) (src : Source) : sourceByte (s.withA v) src = sourceByte s src :=
  sourceByte_withAFlags s v s.flags src

@[simp] theorem effectiveAddress_withFlags (f : Flags) (form : MemForm) :
    effectiveAddress (s.withFlags f) form = effectiveAddress s form := effectiveAddress_withAFlags s s.a f form

@[simp] theorem effectiveAddress_withA (v : Byte) (form : MemForm) :
    effectiveAddress (s.withA v) form = effectiveAddress s form := effectiveAddress_withAFlags s v s.flags form

end

/-! ### The flags an instruction writes -/

/-- No flag. -/
def noFlags : Flags := { v := false, i1 := false, h := false, i0 := false, n := false, z := false, c := false }

/-- The flags of either of two sets. -/
def Flags.union (w w' : Flags) : Flags :=
  ⟨w.v || w'.v, w.i1 || w'.i1, w.h || w'.h, w.i0 || w'.i0, w.n || w'.n, w.z || w'.z, w.c || w'.c⟩

/-- The flags an instruction's rule writes (R17 to R22): V, H, N, Z, C by ADD; V, N, Z, C by SUB A; N and Z by LD
and CLR; none by JPF and SUB SP; I1 and I0 by no rule. -/
def flagsWritten (i : Instr) : Flags :=
  match ruleNumber i with
  | 73 => { noFlags with v := true, h := true, n := true, z := true, c := true }
  | 85 => { noFlags with v := true, n := true, z := true, c := true }
  | 76 | 79 | 80 => { noFlags with n := true, z := true }
  | _ => noFlags

/-- A set of flags with neither I1 nor I0 in it. -/
def OmitsInterruptFlags (written : Flags) : Prop := written.i1 = false ∧ written.i0 = false

theorem noFlags_omitsInterruptFlags : OmitsInterruptFlags noFlags := ⟨rfl, rfl⟩

theorem OmitsInterruptFlags.union {w w' : Flags} (h : OmitsInterruptFlags w) (h' : OmitsInterruptFlags w') :
    OmitsInterruptFlags (w.union w') := by
  obtain ⟨hi1, hi0⟩ := h
  obtain ⟨hi1', hi0'⟩ := h'
  exact ⟨by simp [Flags.union, hi1, hi1'], by simp [Flags.union, hi0, hi0']⟩

theorem flagsWritten_omitsInterruptFlags (i : Instr) : OmitsInterruptFlags (flagsWritten i) := by
  unfold flagsWritten
  split <;> exact ⟨rfl, rfl⟩

/-! ### One meaning for every instruction -/

/-- An instruction asks `checks` and gives `result`. The checks look at neither A nor a flag. Other flags before are
other flags after outside `flagsWritten` and change nothing more; another A before is another A and other flags after
and changes nothing more. -/
structure Meaning (i : Instr) (checks : State → List Check) (result : State → State) : Prop where
  exec_eq : ∀ s, exec i s = answer (checks s) (result s)
  checks_withAFlags : ∀ s v g, checks ((s.withA v).withFlags g) = checks s
  result_withFlags : ∀ s f,
    result (s.withFlags f) = (result s).withFlags (Flags.select (flagsWritten i) (result s).flags f)
  result_withA : ∀ s v, ∃ w g, result (s.withA v) = ((result s).withA w).withFlags g

theorem meaning_addInstr (src : Source) :
    Meaning (addInstr src) (fun s => roomCheck s (addInstr src).length :: sourceChecks s src)
      (fun s => addResult s src (addInstr src).length) where
  exec_eq := exec_addInstr src
  checks_withAFlags s v g := congrArg (roomCheck s _ :: ·) (sourceChecks_withAFlags s v g src)
  result_withFlags s f := by
    simp only [addResult, sourceByte_withFlags, flagsWritten, ruleNumber_addInstr]
    rfl
  result_withA s v := ⟨v + sourceByte s src, s.flags.afterAdd v (sourceByte s src), by
    simp only [addResult, sourceByte_withA]
    rfl⟩

theorem meaning_ldInstr (src : Source) :
    Meaning (ldInstr src) (fun s => roomCheck s (ldInstr src).length :: sourceChecks s src)
      (fun s => ldResult s src (ldInstr src).length) where
  exec_eq := exec_ldInstr src
  checks_withAFlags s v g := congrArg (roomCheck s _ :: ·) (sourceChecks_withAFlags s v g src)
  result_withFlags s f := by
    simp only [ldResult, sourceByte_withFlags, flagsWritten, ruleNumber_ldInstr]
    rfl
  result_withA s v := ⟨sourceByte s src, s.flags.afterLoad (sourceByte s src), by
    simp only [ldResult, sourceByte_withA]
    rfl⟩

theorem meaning_subInstr (src : Source) :
    Meaning (subInstr src) (fun s => roomCheck s (subInstr src).length :: sourceChecks s src)
      (fun s => subResult s src (subInstr src).length) where
  exec_eq := exec_subInstr src
  checks_withAFlags s v g := congrArg (roomCheck s _ :: ·) (sourceChecks_withAFlags s v g src)
  result_withFlags s f := by
    simp only [subResult, sourceByte_withFlags, flagsWritten, ruleNumber_subInstr]
    rfl
  result_withA s v := ⟨v - sourceByte s src, s.flags.afterSub v (sourceByte s src), by
    simp only [subResult, sourceByte_withA]
    rfl⟩

theorem meaning_clrInstr (f : MemForm) :
    Meaning (clrInstr f) (fun s => roomCheck s (clrInstr f).length :: destChecks s f)
      (fun s => clrResult s f (clrInstr f).length) where
  exec_eq := exec_clrInstr f
  checks_withAFlags s v g := congrArg (roomCheck s _ :: ·) (destChecks_withAFlags s v g f)
  result_withFlags s g := by
    simp only [clrResult, effectiveAddress_withFlags, flagsWritten, ruleNumber_clrInstr]
    rfl
  result_withA s v := ⟨v, s.flags.afterClear, by
    simp only [clrResult, effectiveAddress_withA]
    rfl⟩

theorem meaning_clrA : Meaning .clrA (fun s => [roomCheck s 1]) clrAResult where
  exec_eq _ := rfl
  checks_withAFlags _ _ _ := rfl
  result_withFlags _ _ := rfl
  result_withA s _ := ⟨0, s.flags.afterClear, rfl⟩

theorem meaning_jpfExtmem (target : ExtAddr) :
    Meaning (.jpfExtmem target) (fun s => [roomCheck s 4]) (fun s => s.withPC target) where
  exec_eq _ := rfl
  checks_withAFlags _ _ _ := rfl
  result_withFlags _ _ := rfl
  result_withA s v := ⟨v, s.flags, rfl⟩

theorem meaning_jpfLongptr (ptr : Word) :
    Meaning (.jpfLongptr ptr)
      (fun s => [roomCheck s 4, readCheck s ptr.toNat, readCheck s (ptr.toNat + 1), readCheck s (ptr.toNat + 2)])
      (fun s => s.withPC (pointerExt s ptr.toNat)) where
  exec_eq _ := rfl
  checks_withAFlags _ _ _ := rfl
  result_withFlags _ _ := rfl
  result_withA s v := ⟨v, s.flags, rfl⟩

theorem meaning_subSPByte (imm : Byte) :
    Meaning (.subSPByte imm)
      (fun s => [roomCheck s 2, ⟨s.cfg.spPolicy == .wrap || imm.toNat ≤ s.sp.toNat, .spWrap⟩])
      (fun s => subSPResult s imm) where
  exec_eq _ := rfl
  checks_withAFlags _ _ _ := rfl
  result_withFlags _ _ := rfl
  result_withA s v := ⟨v, s.flags, rfl⟩

theorem exists_meaning (i : Instr) : ∃ checks result, Meaning i checks result := by
  rcases instr_cases i with ⟨src, rfl⟩ | ⟨src, rfl⟩ | rfl | ⟨f, rfl⟩ | ⟨v, rfl⟩ | ⟨v, rfl⟩ | ⟨src, rfl⟩ | ⟨v, rfl⟩
  · exact ⟨_, _, meaning_addInstr src⟩
  · exact ⟨_, _, meaning_ldInstr src⟩
  · exact ⟨_, _, meaning_clrA⟩
  · exact ⟨_, _, meaning_clrInstr f⟩
  · exact ⟨_, _, meaning_jpfExtmem v⟩
  · exact ⟨_, _, meaning_jpfLongptr v⟩
  · exact ⟨_, _, meaning_subInstr src⟩
  · exact ⟨_, _, meaning_subSPByte v⟩

/-! ### Other flags before: an instruction, a step, a run -/

/-- An outcome with the flags outside `written` replaced by those of `f`. -/
def replaceFlags (written f : Flags) : Host.Outcome State Fault Refusal → Host.Outcome State Fault Refusal
  | .next t => .next (t.withFlags (Flags.select written t.flags f))
  | .fault e => .fault e
  | .refused r => .refused r

theorem exec_withFlags (i : Instr) (s : State) (f : Flags) :
    exec i (s.withFlags f) = replaceFlags (flagsWritten i) f (exec i s) := by
  obtain ⟨checks, result, m⟩ := exists_meaning i
  have hchecks : checks (s.withFlags f) = checks s := m.checks_withAFlags s s.a f
  rw [m.exec_eq, m.exec_eq, hchecks, m.result_withFlags, answer, answer]
  cases firstRefusal (checks s) <;> rfl

theorem step_withFlags (s : State) :
    ∃ written, OmitsInterruptFlags written ∧ ∀ f, step (s.withFlags f) = replaceFlags written f (step s) := by
  have hchecks (f : Flags) : fetchChecks (s.withFlags f) = fetchChecks s := fetchChecks_congr rfl rfl rfl
  have hinstr (f : Flags) : fetchedInstr (s.withFlags f) = fetchedInstr s := fetchedInstr_congr rfl rfl
  simp only [step, hchecks, hinstr, State.withFlags_cfg, State.withFlags_pc]
  cases fetchedInstr s with
  | none =>
    refine ⟨noFlags, noFlags_omitsInterruptFlags, fun f => ?_⟩
    split
    · rfl
    · split <;> rfl
  | some i =>
    refine ⟨flagsWritten i, flagsWritten_omitsInterruptFlags i, fun f => ?_⟩
    split
    · rfl
    · split
      · rfl
      · exact exec_withFlags i s f

/-- The flags outside `written` of a state that an outcome gives are those of `f`. -/
theorem flags_eq_select {written f : Flags} {t : State} (h : .next t = replaceFlags written f (.next t)) :
    t.flags = Flags.select written t.flags f := by
  injection h with h
  exact congrArg State.flags h

/-- Two replacements, one after the other, are one outside the flags that either leaves alone. -/
theorem replaceFlags_select {w old : Flags} {o : Host.Outcome State Fault Refusal}
    (h : o = replaceFlags w old o) (w' f : Flags) :
    replaceFlags w (Flags.select w' old f) o = replaceFlags (w.union w') f o := by
  cases o with
  | next t => simp only [replaceFlags, Flags.select_select w' f (flags_eq_select h), Flags.union]
  | fault e => rfl
  | refused r => rfl

/-- A run reads no flag and writes a set of flags without I1 and I0: the union over its steps. -/
theorem run_withFlags (n : Nat) (s : State) :
    ∃ written, OmitsInterruptFlags written ∧ ∀ f, run n (s.withFlags f) = replaceFlags written f (run n s) := by
  induction n generalizing s with
  | zero => exact ⟨noFlags, noFlags_omitsInterruptFlags, fun _ => rfl⟩
  | succ n ih =>
    obtain ⟨w, hw, hstep⟩ := step_withFlags s
    cases hs : step s with
    | fault e => exact ⟨w, hw, fun f => by simp only [run_succ, hstep, hs, replaceFlags]⟩
    | refused r => exact ⟨w, hw, fun f => by simp only [run_succ, hstep, hs, replaceFlags]⟩
    | next u =>
      obtain ⟨w', hw', hrun⟩ := ih u
      refine ⟨w'.union w, hw'.union hw, fun f => ?_⟩
      calc run (n + 1) (s.withFlags f)
          = run n (u.withFlags (Flags.select w u.flags f)) := by rw [run_succ, hstep, hs]; rfl
        _ = replaceFlags w' (Flags.select w u.flags f) (run n u) := hrun _
        _ = replaceFlags (w'.union w) f (run n u) := replaceFlags_select (hrun u.flags) w f
        _ = replaceFlags (w'.union w) f (run (n + 1) s) := by rw [run_succ, hs]

/-- Settles O50: `exec_withFlags` for an instruction, `run_withFlags` for a run. -/
theorem flagsAreNeverRead : Obligations.FlagsAreNeverRead := by
  refine ⟨fun i => ⟨flagsWritten i, fun s f => ?_⟩, fun n s => ?_⟩
  · have hexec := exec_withFlags i s f
    exact ⟨fun t h => hexec.trans (congrArg _ h), fun r h => hexec.trans (congrArg _ h)⟩
  · obtain ⟨w, -, hrun⟩ := run_withFlags n s
    exact ⟨fun t h => ⟨w, fun f => (hrun f).trans (congrArg _ h)⟩, fun e h f => (hrun f).trans (congrArg _ h),
      fun r h f => (hrun f).trans (congrArg _ h)⟩

/-! ### I1 and I0 -/

theorem OmitsInterruptFlags.select_keeps {w : Flags} (hw : OmitsInterruptFlags w) (new old : Flags) :
    (Flags.select w new old).i1 = old.i1 ∧ (Flags.select w new old).i0 = old.i0 := by
  obtain ⟨hi1, hi0⟩ := hw
  simp [Flags.select, hi1, hi0]

/-- Where `old` shows outside `w` already, other values of I1 and I0 in it change those two bits alone. -/
theorem OmitsInterruptFlags.select_otherBits {w new old : Flags} (hw : OmitsInterruptFlags w)
    (h : new = Flags.select w new old) (b1 b0 : Bool) :
    Flags.select w new { old with i1 := b1, i0 := b0 } = { new with i1 := b1, i0 := b0 } := by
  obtain ⟨hi1, hi0⟩ := hw
  calc Flags.select w new { old with i1 := b1, i0 := b0 }
      = { Flags.select w new old with i1 := b1, i0 := b0 } := by simp [Flags.select, hi1, hi0]
    _ = { new with i1 := b1, i0 := b0 } := by rw [← h]

/-- An instruction leaves the flags outside `flagsWritten` as they were. -/
theorem exec_flags_eq_select {i : Instr} {s t : State} (h : exec i s = .next t) :
    t.flags = Flags.select (flagsWritten i) t.flags s.flags :=
  flags_eq_select (h ▸ exec_withFlags i s s.flags)

/-- Settles O47: no instruction's written flags, and so no run's, hold I1 or I0. -/
theorem interruptFlagsUntouched : Obligations.InterruptFlagsUntouched := by
  refine ⟨fun i s t h => ?_, fun n s b1 b0 => ?_⟩
  · rw [exec_flags_eq_select h]
    exact (flagsWritten_omitsInterruptFlags i).select_keeps _ _
  · obtain ⟨w, hw, hrun⟩ := run_withFlags n s
    refine ⟨fun t h => ?_, fun e h => (hrun _).trans (congrArg _ h), fun r h => (hrun _).trans (congrArg _ h)⟩
    have hflags : t.flags = Flags.select w t.flags s.flags := flags_eq_select (h ▸ hrun s.flags)
    have hkept := hw.select_keeps t.flags s.flags
    rw [← hflags] at hkept
    refine ⟨hkept.1, hkept.2, (hrun _).trans ?_⟩
    rw [h, replaceFlags, hw.select_otherBits hflags]
    rfl

end Sys2Proof.Machine
end

section
/-! Flag by flag, what each instruction leaves (R17 to R21), and the uses of A (R10). -/

namespace Sys2Proof.Machine

/-! ### A and the flags after each instruction rule -/

section
variable {s t : State}

theorem exec_add_a_flags {src : Source} (h : exec (addInstr src) s = .next t) :
    t.a = s.a + sourceByte s src ∧ t.flags = s.flags.afterAdd s.a (sourceByte s src) := by
  obtain ⟨-, rfl⟩ := (exec_add_next ..).1 h
  exact ⟨rfl, rfl⟩

theorem exec_sub_a_flags {src : Source} (h : exec (subInstr src) s = .next t) :
    t.a = s.a - sourceByte s src ∧ t.flags = s.flags.afterSub s.a (sourceByte s src) := by
  obtain ⟨-, rfl⟩ := (exec_sub_next ..).1 h
  exact ⟨rfl, rfl⟩

theorem exec_ld_a_flags {src : Source} (h : exec (ldInstr src) s = .next t) :
    t.a = sourceByte s src ∧ t.flags = s.flags.afterLoad (sourceByte s src) := by
  obtain ⟨-, rfl⟩ := (exec_ld_next ..).1 h
  exact ⟨rfl, rfl⟩

theorem exec_clrA_a_flags (h : exec .clrA s = .next t) : t.a = 0 ∧ t.flags = s.flags.afterClear := by
  obtain ⟨-, rfl⟩ := (exec_clrA_next ..).1 h
  exact ⟨rfl, rfl⟩

theorem exec_clr_a_flags {f : MemForm} (h : exec (clrInstr f) s = .next t) :
    t.a = s.a ∧ t.flags = s.flags.afterClear := by
  obtain ⟨-, rfl⟩ := (exec_clr_next ..).1 h
  exact ⟨rfl, rfl⟩

/-- JPF and SUB SP, the instructions that write neither A nor a flag. -/
def IsJumpOrSubSP (i : Instr) : Prop :=
  (∃ target, i = .jpfExtmem target) ∨ (∃ ptr, i = .jpfLongptr ptr) ∨ ∃ imm, i = .subSPByte imm

theorem exec_jumpOrSubSP_a_flags {i : Instr} (hi : IsJumpOrSubSP i) (h : exec i s = .next t) :
    t.a = s.a ∧ t.flags = s.flags := by
  rcases hi with ⟨target, rfl⟩ | ⟨ptr, rfl⟩ | ⟨imm, rfl⟩
  · obtain ⟨-, rfl⟩ := (exec_jpfExtmem_next ..).1 h
    exact ⟨rfl, rfl⟩
  · obtain ⟨-, rfl⟩ := (exec_jpfLongptr_next ..).1 h
    exact ⟨rfl, rfl⟩
  · obtain ⟨-, rfl⟩ := (exec_subSP_next ..).1 h
    exact ⟨rfl, rfl⟩

/-- The six ways an instruction treats A and the flags. -/
theorem instr_aFlags_cases (i : Instr) :
    (∃ src, i = addInstr src) ∨ (∃ src, i = subInstr src) ∨ (∃ src, i = ldInstr src) ∨ i = .clrA ∨
    (∃ f, i = clrInstr f) ∨ IsJumpOrSubSP i := by
  rcases instr_cases i with h | h | h | h | h | h | h | h
  · exact .inl h
  · exact .inr (.inr (.inl h))
  · exact .inr (.inr (.inr (.inl h)))
  · exact .inr (.inr (.inr (.inr (.inl h))))
  · exact .inr (.inr (.inr (.inr (.inr (.inl h)))))
  · exact .inr (.inr (.inr (.inr (.inr (.inr (.inl h))))))
  · exact .inr (.inl h)
  · exact .inr (.inr (.inr (.inr (.inr (.inr (.inr h))))))

/-! ### N and Z: the result of ADD, SUB A and LD -/

theorem exec_negative_isZero {i : Instr} {src : Source} (hi : i = addInstr src ∨ i = subInstr src ∨ i = ldInstr src)
    (h : exec i s = .next t) : t.flags.n = negative t.a ∧ t.flags.z = isZero t.a := by
  rcases hi with rfl | rfl | rfl
  · obtain ⟨ha, hf⟩ := exec_add_a_flags h
    rw [ha, hf]
    exact ⟨rfl, rfl⟩
  · obtain ⟨ha, hf⟩ := exec_sub_a_flags h
    rw [ha, hf]
    exact ⟨rfl, rfl⟩
  · obtain ⟨ha, hf⟩ := exec_ld_a_flags h
    rw [ha, hf]
    exact ⟨rfl, rfl⟩

theorem exec_clear_flags {i : Instr} (hi : i = .clrA ∨ ∃ f, i = clrInstr f) (h : exec i s = .next t) :
    t.flags = s.flags.afterClear := by
  rcases hi with rfl | ⟨f, rfl⟩
  · exact (exec_clrA_a_flags h).2
  · exact (exec_clr_a_flags h).2

/-! ### V, H and C: ADD and SUB A only -/

theorem afterAdd_v_eq_overflow (f : Flags) (a m : Byte) :
    (f.afterAdd a m).v = decide (a.toInt + m.toInt < -128 ∨ 127 < a.toInt + m.toInt) := by
  have := a.isLt
  have := m.isLt
  rw [Flags.afterAdd_v, carryOut_seven, carryOut_six, xor_decide, toInt_byte, toInt_byte]
  refine decide_eq_decide.2 ?_
  split <;> split <;> omega

theorem afterSub_v_eq_overflow (f : Flags) (a m : Byte) :
    (f.afterSub a m).v = decide (a.toInt - m.toInt < -128 ∨ 127 < a.toInt - m.toInt) := by
  have := a.isLt
  have := m.isLt
  rw [Flags.afterSub_v, borrowOut_seven, borrowOut_six, xor_decide, toInt_byte, toInt_byte]
  refine decide_eq_decide.2 ?_
  split <;> split <;> omega

theorem exec_keeps_v_h_c {i : Instr} (hi : ∀ src, i ≠ addInstr src ∧ i ≠ subInstr src) (h : exec i s = .next t) :
    t.flags.v = s.flags.v ∧ t.flags.h = s.flags.h ∧ t.flags.c = s.flags.c := by
  rcases instr_aFlags_cases i with ⟨src, rfl⟩ | ⟨src, rfl⟩ | ⟨src, rfl⟩ | hclr | hclr | hjump
  · exact absurd rfl (hi src).1
  · exact absurd rfl (hi src).2
  · rw [(exec_ld_a_flags h).2]
    exact ⟨rfl, rfl, rfl⟩
  · rw [exec_clear_flags (.inl hclr) h]
    exact ⟨rfl, rfl, rfl⟩
  · rw [exec_clear_flags (.inr hclr) h]
    exact ⟨rfl, rfl, rfl⟩
  · rw [(exec_jumpOrSubSP_a_flags hjump h).2]
    exact ⟨rfl, rfl, rfl⟩

end

/-! ### The flag rules -/

/-- Settles O25: the carries and borrows out of bits 7 and 6 differ exactly at signed overflow. -/
theorem overflowFlagRule : Obligations.OverflowFlagRule := by
  refine fun i s t h => ⟨?_, ?_, fun hi => (exec_keeps_v_h_c hi h).1⟩
  · rintro src rfl
    rw [(exec_add_a_flags h).2, afterAdd_v_eq_overflow]
  · rintro src rfl
    rw [(exec_sub_a_flags h).2, afterSub_v_eq_overflow]

/-- Settles O26: SUB A is the one rule besides ADD that computes carries or borrows, and it keeps H. -/
theorem halfCarryFlagRule : Obligations.HalfCarryFlagRule := by
  refine fun i s t h => ⟨?_, fun hi => ?_⟩
  · rintro src rfl
    rw [(exec_add_a_flags h).2, Flags.afterAdd_h, carryOut_three]
  · by_cases hsub : ∃ src, i = subInstr src
    · obtain ⟨src, rfl⟩ := hsub
      rw [(exec_sub_a_flags h).2, Flags.afterSub_h]
    · exact (exec_keeps_v_h_c (fun src => ⟨hi src, fun hs => hsub ⟨src, hs⟩⟩) h).2.1

/-- Settles O27: N is `negative` of the result, which is its bit 7, and CLR writes a constant. -/
theorem negativeFlagRule : Obligations.NegativeFlagRule := by
  refine fun i s t h => ⟨fun src hi => ?_, fun hi => ?_, fun hi => ?_⟩
  · rw [(exec_negative_isZero hi h).1, negative_eq]
  · rw [exec_clear_flags hi h, Flags.afterClear_n]
  · rw [(exec_jumpOrSubSP_a_flags hi h).2]

/-- Settles O28: Z is `isZero` of the result, and CLR writes a constant. -/
theorem zeroFlagRule : Obligations.ZeroFlagRule := by
  refine fun i s t h => ⟨fun src hi => ?_, fun hi => ?_, fun hi => ?_⟩
  · rw [(exec_negative_isZero hi h).2, isZero_eq]
  · rw [exec_clear_flags hi h, Flags.afterClear_z]
  · rw [(exec_jumpOrSubSP_a_flags hi h).2]

/-- Settles O29: the carry and the borrow out of bit 7 as comparisons of unsigned bytes. -/
theorem carryFlagRule : Obligations.CarryFlagRule := by
  refine fun i s t h => ⟨?_, ?_, fun hi => (exec_keeps_v_h_c hi h).2.2⟩
  · rintro src rfl
    rw [(exec_add_a_flags h).2, Flags.afterAdd_c, carryOut_seven]
  · rintro src rfl
    rw [(exec_sub_a_flags h).2, Flags.afterSub_c, borrowOut_seven]

/-! ### The uses of A -/

section
variable {s t : State}

/-- Another A before: the instruction ends alike but for A and the flags. -/
theorem exec_withA (i : Instr) (s : State) (v : Byte) :
    (∀ t, exec i s = .next t → ∃ w g, exec i (s.withA v) = .next ((t.withA w).withFlags g)) ∧
    ∀ r, exec i s = .refused r → exec i (s.withA v) = .refused r := by
  obtain ⟨checks, result, m⟩ := exists_meaning i
  have hchecks : checks (s.withA v) = checks s := m.checks_withAFlags s v s.flags
  obtain ⟨w, g, hresult⟩ := m.result_withA s v
  simp only [m.exec_eq, hchecks, hresult, answer_next, answer_refused]
  refine ⟨?_, fun r h => h⟩
  rintro t ⟨hok, rfl⟩
  exact ⟨w, g, hok, rfl⟩

/-- An instruction other than ADD and SUB A leaves the same flags from another A. -/
theorem exec_withA_flags {i : Instr} {v : Byte} {t' : State} (hi : ∀ src, i ≠ addInstr src ∧ i ≠ subInstr src)
    (h : exec i s = .next t) (h' : exec i (s.withA v) = .next t') : t'.flags = t.flags := by
  rcases instr_aFlags_cases i with ⟨src, rfl⟩ | ⟨src, rfl⟩ | ⟨src, rfl⟩ | hclr | hclr | hjump
  · exact absurd rfl (hi src).1
  · exact absurd rfl (hi src).2
  · rw [(exec_ld_a_flags h).2, (exec_ld_a_flags h').2, sourceByte_withA, State.withA_flags]
  · rw [exec_clear_flags (.inl hclr) h, exec_clear_flags (.inl hclr) h', State.withA_flags]
  · rw [exec_clear_flags (.inr hclr) h, exec_clear_flags (.inr hclr) h', State.withA_flags]
  · rw [(exec_jumpOrSubSP_a_flags hjump h).2, (exec_jumpOrSubSP_a_flags hjump h').2, State.withA_flags]

/-- LD and CLR A leave the same A from another A. -/
theorem exec_withA_a {i : Instr} {v : Byte} {t' : State} (hi : (∃ src, i = ldInstr src) ∨ i = .clrA)
    (h : exec i s = .next t) (h' : exec i (s.withA v) = .next t') : t'.a = t.a := by
  rcases hi with ⟨src, rfl⟩ | rfl
  · rw [(exec_ld_a_flags h).1, (exec_ld_a_flags h').1, sourceByte_withA]
  · rw [(exec_clrA_a_flags h).1, (exec_clrA_a_flags h').1]

theorem exec_keeps_a {i : Instr} (hi : ∀ src, i ≠ addInstr src ∧ i ≠ subInstr src ∧ i ≠ ldInstr src)
    (hclrA : i ≠ .clrA) (h : exec i s = .next t) : t.a = s.a := by
  rcases instr_aFlags_cases i with ⟨src, rfl⟩ | ⟨src, rfl⟩ | ⟨src, rfl⟩ | rfl | ⟨f, rfl⟩ | hjump
  · exact absurd rfl (hi src).1
  · exact absurd rfl (hi src).2.1
  · exact absurd rfl (hi src).2.2
  · exact absurd rfl hclrA
  · exact (exec_clr_a_flags h).1
  · exact (exec_jumpOrSubSP_a_flags hjump h).1

end

/-- Settles O51: from `v` in A the instruction completes by `exec_withA`, and the rule of its mnemonic says which A and
flags it then leaves. -/
theorem accumulatorUse : Obligations.AccumulatorUse := by
  refine fun i s v => ⟨fun t h => ?_, (exec_withA i s v).2⟩
  obtain ⟨w, g, h'⟩ := (exec_withA i s v).1 t h
  refine ⟨w, g, h', ?_, ?_, fun hi => exec_withA_flags hi h h', fun hi => exec_withA_a hi h h',
    fun hi hclrA => ⟨exec_keeps_a hi hclrA h, exec_keeps_a hi hclrA h'⟩⟩
  · rintro src rfl
    simpa using exec_add_a_flags h'
  · rintro src rfl
    simpa using exec_sub_a_flags h'

end Sys2Proof.Machine
end

section
/-! ADD: its printed Boolean formulas, their arithmetic forms and the reading of V by signs (R74). -/

namespace Sys2Proof.Machine

theorem isZero_eq_allBitsClear (r : Byte) :
    isZero r = (!r.getLsbD 7 && !r.getLsbD 6 && !r.getLsbD 5 && !r.getLsbD 4 && !r.getLsbD 3 && !r.getLsbD 2 &&
      !r.getLsbD 1 && !r.getLsbD 0) := by
  rw [isZero, Bool.eq_iff_iff, beq_iff_eq]
  refine ⟨fun h => by rw [h]; rfl, fun h => BitVec.eq_of_getLsbD_eq fun k hk => ?_⟩
  simp only [Bool.and_eq_true, Bool.not_eq_true'] at h
  interval_cases k <;> simp only [h, BitVec.ofNat_eq_ofNat, BitVec.getLsbD_zero]

/-- V by signs: operands of one sign whose sum has the other. Bit 7 is the sign bit, so this is the library's
`BitVec.saddOverflow` of the two bytes. -/
theorem afterAdd_v_eq_signs (f : Flags) (a m : Byte) :
    (f.afterAdd a m).v = (a.getLsbD 7 == m.getLsbD 7 && (a + m).getLsbD 7 != a.getLsbD 7) :=
  calc (f.afterAdd a m).v
      = decide (a.toInt + m.toInt < -128 ∨ 127 < a.toInt + m.toInt) := afterAdd_v_eq_overflow f a m
    _ = a.saddOverflow m := by
      rw [BitVec.saddOverflow, ← Bool.decide_or]
      exact decide_eq_decide.2 (by omega)
    _ = (a.msb == m.msb && !((a + m).msb == a.msb)) := BitVec.saddOverflow_eq a m

/-- Settles O22: the printed formulas are the model's own `carryOut`, whose arithmetic forms the laws give. -/
theorem addFlagFormulas : Obligations.AddFlagFormulas := by
  intro f a m
  refine ⟨rfl, rfl, rfl, isZero_eq_allBitsClear _, rfl, carryOut_seven a m, carryOut_three a m, ?_,
    beq_eq_decide .., afterAdd_v_eq_overflow f a m, afterAdd_v_eq_signs f a m, rfl, rfl⟩
  rw [Flags.afterAdd_v, Flags.afterAdd_c, carryOut_six]

end Sys2Proof.Machine
end

section
/-! SUB A: its printed borrow formulas, their arithmetic forms and the reading of V by signs (R86). -/

namespace Sys2Proof.Machine

/-- V by signs: operands of different signs whose difference has not the sign of the left one. Bit 7 is the sign bit,
so this is the library's `BitVec.ssubOverflow` of the two bytes. -/
theorem afterSub_v_eq_signs (f : Flags) (a m : Byte) :
    (f.afterSub a m).v = (a.getLsbD 7 != m.getLsbD 7 && (a - m).getLsbD 7 != a.getLsbD 7) :=
  calc (f.afterSub a m).v
      = decide (a.toInt - m.toInt < -128 ∨ 127 < a.toInt - m.toInt) := afterSub_v_eq_overflow f a m
    _ = a.ssubOverflow m := by
      rw [BitVec.ssubOverflow, ← Bool.decide_or]
      exact decide_eq_decide.2 (by omega)
    _ = (a.msb != m.msb && (a - m).msb != a.msb) := by
      rw [BitVec.ssubOverflow_eq]
      cases a.msb <;> cases m.msb <;> simp

/-- Settles O23: the printed formulas are the model's own `borrowOut`, whose arithmetic forms the laws give. -/
theorem subFlagFormulas : Obligations.SubFlagFormulas := by
  intro f a m
  exact ⟨rfl, rfl, rfl, beq_eq_decide .., borrowOut_seven a m, borrowOut_six a m, afterSub_v_eq_overflow f a m,
    afterSub_v_eq_signs f a m, rfl, rfl, rfl⟩

end Sys2Proof.Machine
end

section
/-! The decoder and the encoder undo each other (R40, R43, R46): both go through the row of the table. -/

namespace Sys2Proof

/-! ### From an instruction to its bytes and back -/

/-- The instruction is what the row's shape makes of some operand value. -/
def Row.makes (r : Row) (i : Instr) : Prop :=
  match r.shape with
  | .bare j => i = j
  | .byte make => ∃ v, i = make v
  | .word make => ∃ v, i = make v
  | .ext make => ∃ v, i = make v

theorem row?_mem {i : Instr} {r : Row} (h : i.row? = some r) : r ∈ opcodeTable := by
  unfold Instr.row? at h
  split at h
  · cases h
  · split at h
    · obtain ⟨o, -, hfind⟩ := Option.bind_eq_some_iff.1 h
      exact (findRow_mem hfind).1
    · exact (findRow_mem h).1

/-- Every instruction is made by a row of the table (R47). -/
theorem exists_row (i : Instr) : ∃ r ∈ opcodeTable, r.makes i := by
  have h : ∃ r, i.row? = some r ∧ r.makes i := by
    cases i <;> refine ⟨_, rfl, ?_⟩ <;> first | exact rfl | exact ⟨_, rfl⟩
  obtain ⟨r, hrow, hmakes⟩ := h
  exact ⟨r, row?_mem hrow, hmakes⟩

/-- The head of a row of the table selects that row, and the bytes after it are its operands (R43). -/
theorem decode_head_append : ∀ r ∈ opcodeTable,
    ∀ operands, decode (r.head ++ operands) = r.shape.assemble operands := by
  intro r hr operands
  fin_cases hr <;> rfl

theorem assemble_wordOperand (make : Word → Instr) (v : Word) (rest : List Byte) :
    (Shape.word make).assemble (wordOperand v ++ rest) = .ok (make v, rest) := by
  simp only [wordOperand, List.cons_append, List.nil_append, Shape.assemble, word_eq_append]

theorem assemble_extOperand (make : ExtAddr → Instr) (v : ExtAddr) (rest : List Byte) :
    (Shape.ext make).assemble (extOperand v ++ rest) = .ok (make v, rest) := by
  simp only [extOperand, List.cons_append, List.nil_append, Shape.assemble, ext_eq_append]

theorem decode_encode (i : Instr) (rest : List Byte) : decode (encode i ++ rest) = .ok (i, rest) := by
  obtain ⟨r, hr, hmakes⟩ := exists_row i
  have hencodes := encodes_of_mem r hr
  have hdecode := decode_head_append r hr
  unfold Row.makes at hmakes
  unfold Row.encodes at hencodes
  cases hs : r.shape with
  | bare j =>
    simp only [hs] at hmakes hencodes hdecode
    rw [hmakes, hencodes.1, hdecode]
    rfl
  | byte make =>
    simp only [hs] at hmakes hencodes hdecode
    obtain ⟨v, rfl⟩ := hmakes
    rw [(hencodes v).1, List.append_assoc, hdecode]
    rfl
  | word make =>
    simp only [hs] at hmakes hencodes hdecode
    obtain ⟨v, rfl⟩ := hmakes
    rw [(hencodes v).1, List.append_assoc, hdecode, assemble_wordOperand]
  | ext make =>
    simp only [hs] at hmakes hencodes hdecode
    obtain ⟨v, rfl⟩ := hmakes
    rw [(hencodes v).1, List.append_assoc, hdecode, assemble_extOperand]

/-- Settles O3: the bytes of an instruction select the row that makes it. -/
theorem decodeEncode : Obligations.DecodeEncode := fun i rest _ => decode_encode i rest

/-! ### From bytes to an instruction and back -/

@[simp] theorem length_encode (i : Instr) : (encode i).length = i.length := by cases i <;> rfl

/-- The row that a search finds decodes to an instruction whose encoding is what was sought and the bytes taken. -/
theorem decodeRow_findRow {p : Option Byte} {o : Byte} {bytes rest : List Byte} {i : Instr}
    (h : decodeRow (findRow p o) bytes = .ok (i, rest)) :
    p.toList ++ o :: bytes = encode i ++ rest := by
  obtain ⟨r, hr, hbytes, -⟩ := decodeRow_ok h (fun _ hr => (findRow_mem hr).1)
  obtain ⟨-, rfl, rfl⟩ := findRow_mem hr
  rw [← hbytes, Row.head]
  cases r.precode <;> rfl

theorem encode_of_decode {bytes rest : List Byte} {i : Instr} (h : decode bytes = .ok (i, rest)) :
    bytes = encode i ++ rest := by
  unfold decode at h
  split at h
  · cases h
  · split at h
    · split at h
      · cases h
      · exact decodeRow_findRow h
    · exact decodeRow_findRow h

/-- Settles O4: the row found carries the bytes it was found by. -/
theorem encodeDecode : Obligations.EncodeDecode := fun _ i _ h => ⟨encode_of_decode h, length_encode i⟩

end Sys2Proof
end

section
/-! Operands: the value of a pointer, the effective address of each form, and the ranges these can reach (R28, R29,
R55 to R71, 20_memory section 1). -/

namespace Sys2Proof.Machine

/-! ### Pointers -/

section
variable {s : State} (p : Nat)

theorem pointerWord_msFirst (h : s.cfg.pointerOrder = .msFirst) :
    (pointerWord s p).toNat = 0x100 * (s.mem.read p).toNat + (s.mem.read (p + 1)).toNat := by
  simp only [pointerWord, h, toNat_append_byte]

theorem pointerWord_lsFirst (h : s.cfg.pointerOrder = .lsFirst) :
    (pointerWord s p).toNat = (s.mem.read p).toNat + 0x100 * (s.mem.read (p + 1)).toNat := by
  simp only [pointerWord, h, toNat_append_byte, Nat.add_comm]

/-- The value of a 2-byte pointer in memory, in either byte order (R29, D4). -/
def pointerValue (s : State) (p : Nat) : Nat :=
  match s.cfg.pointerOrder with
  | .msFirst => 0x100 * (s.mem.read p).toNat + (s.mem.read (p + 1)).toNat
  | .lsFirst => (s.mem.read p).toNat + 0x100 * (s.mem.read (p + 1)).toNat

theorem pointerWord_toNat (s : State) : (pointerWord s p).toNat = pointerValue s p := by
  unfold pointerValue
  cases h : s.cfg.pointerOrder with
  | msFirst => exact pointerWord_msFirst p h
  | lsFirst => exact pointerWord_lsFirst p h

theorem pointerExt_msFirst (h : s.cfg.pointerOrder = .msFirst) :
    (pointerExt s p).toNat =
      0x10000 * (s.mem.read p).toNat + 0x100 * (s.mem.read (p + 1)).toNat + (s.mem.read (p + 2)).toNat := by
  simp only [pointerExt, h, toNat_append_byte]
  omega

theorem pointerExt_lsFirst (h : s.cfg.pointerOrder = .lsFirst) :
    (pointerExt s p).toNat =
      (s.mem.read p).toNat + 0x100 * (s.mem.read (p + 1)).toNat + 0x10000 * (s.mem.read (p + 2)).toNat := by
  simp only [pointerExt, h, toNat_append_byte]
  omega

end

/-- Settles O14: appending a byte multiplies what stands before it by 256. -/
theorem pointersAreMostSignificantFirst : Obligations.PointersAreMostSignificantFirst := fun _ p =>
  ⟨fun h => ⟨pointerWord_msFirst p h, pointerExt_msFirst p h⟩,
    fun h => ⟨pointerWord_lsFirst p h, pointerExt_lsFirst p h⟩⟩

/-- Settles O15: the forms without a pointer by definition, the others by the value of their pointer. -/
theorem effectiveAddresses : Obligations.EffectiveAddresses := by
  intro s b w pointerAt
  have hptr (p : Nat) : (pointerWord s p).toNat = pointerAt p := pointerWord_toNat p s
  exact ⟨rfl, rfl, rfl, rfl, rfl, rfl, rfl, rfl, rfl, hptr _, hptr _, congrArg (· + s.x.toNat) (hptr _),
    congrArg (· + s.x.toNat) (hptr _), congrArg (· + s.y.toNat) (hptr _)⟩

/-- Settles O20: the model's definition of a source byte. -/
theorem sourceByteIsOperandOrMemory : Obligations.SourceByteIsOperandOrMemory :=
  fun _ => ⟨fun _ => ⟨rfl, trivial⟩, fun _ => rfl⟩

/-! ### Ranges -/

theorem pointerAddress_le {f : MemForm} {p : Nat} (h : pointerAddress f = some p) : p ≤ 0xFFFF := by
  cases f with
  | shortmem | longmem | atX | shortoffX | longoffX | atY | shortoffY | longoffY | shortoffSP => cases h
  | shortptr v | longptr v | shortptrX v | longptrX v | shortptrY v =>
    cases h
    have := v.isLt
    omega

/-- The highest address that a form can reach (R56): both parts of its sum are at most 0xFFFF. -/
theorem effectiveAddress_le (s : State) (f : MemForm) : effectiveAddress s f ≤ 0x01FFFE := by
  have := s.x.isLt
  have := s.y.isLt
  have := s.sp.isLt
  cases f with
  | atX | atY => simp only [effectiveAddress]; omega
  | shortmem v | longmem v | shortoffX v | longoffX v | shortoffY v | longoffY v | shortoffSP v =>
    have := v.isLt
    simp only [effectiveAddress]
    omega
  | shortptr v | longptr v | shortptrX v | longptrX v | shortptrY v =>
    have := (pointerWord s v.toNat).isLt
    simp only [effectiveAddress]
    omega

/-- Settles O16: each part of an address is a byte or a word. -/
theorem addressRanges : Obligations.AddressRanges := by
  refine ⟨fun s b => ?_, fun s w => ?_, fun s => ?_, fun f p h => ⟨pointerAddress_le h, ?_⟩, effectiveAddress_le⟩
  · have := b.isLt
    have := s.x.isLt
    have := s.y.isLt
    have := s.sp.isLt
    have := (pointerWord s b.toNat).isLt
    simp only [effectiveAddress]
    omega
  · have := w.isLt
    have := s.x.isLt
    have := s.y.isLt
    have := (pointerWord s w.toNat).isLt
    simp only [effectiveAddress]
    omega
  · have := s.x.isLt
    have := s.y.isLt
    simp only [effectiveAddress]
    omega
  · rintro ⟨b, rfl | rfl | rfl⟩ <;> cases h <;> exact Nat.le_of_lt_succ b.isLt

end Sys2Proof.Machine
end

section
/-! What a step can do to memory and to what no instruction writes, and from that what every run keeps. -/

namespace Sys2Proof.Machine

section
variable {s t : State}

/-! ### An instruction and a step -/

/-- No instruction writes X, Y or a parameter (R4, R11). -/
theorem exec_keeps_x_y_cfg {i : Instr} (h : exec i s = .next t) : t.x = s.x ∧ t.y = s.y ∧ t.cfg = s.cfg := by
  rcases exec_next_cases h with ⟨_, _, _, _, rfl⟩ | ⟨_, _, _, _, rfl⟩ | ⟨_, _, rfl⟩ | ⟨_, _, _, _, rfl⟩ |
    ⟨_, _, _, rfl⟩ | ⟨_, _, _, rfl⟩ | ⟨_, _, _, _, rfl⟩ | ⟨_, _, _, rfl⟩ <;> exact ⟨rfl, rfl, rfl⟩

/-- CLR mem is the one instruction that writes memory: one byte, 0, at an address that admits it (R33, R80). -/
theorem exec_mem_cases {i : Instr} (h : exec i s = .next t) :
    t.mem = s.mem ∨
      ∃ f, i = clrInstr f ∧ destAdmitted s f ∧ t.mem = s.mem.write (effectiveAddress s f) 0 := by
  rcases exec_next_cases h with ⟨_, _, _, _, rfl⟩ | ⟨_, _, _, _, rfl⟩ | ⟨_, _, rfl⟩ | ⟨f, hi, _, hdest, rfl⟩ |
    ⟨_, _, _, rfl⟩ | ⟨_, _, _, rfl⟩ | ⟨_, _, _, _, rfl⟩ | ⟨_, _, _, rfl⟩
  case inr.inr.inr.inl => exact .inr ⟨f, hi, hdest, rfl⟩
  all_goals exact .inl rfl

theorem step_keeps_x_y_cfg (h : step s = .next t) : t.x = s.x ∧ t.y = s.y ∧ t.cfg = s.cfg := by
  obtain ⟨-, -, i, -, hexec⟩ := step_next_cases h
  exact exec_keeps_x_y_cfg hexec

theorem step_mem_cases (h : step s = .next t) :
    t.mem = s.mem ∨ ∃ f, destAdmitted s f ∧ t.mem = s.mem.write (effectiveAddress s f) 0 := by
  obtain ⟨-, -, i, -, hexec⟩ := step_next_cases h
  exact (exec_mem_cases hexec).imp_right fun ⟨f, _, hdest, hmem⟩ => ⟨f, hdest, hmem⟩

theorem step_keeps_wf (hwf : s.mem.wf = true) (h : step s = .next t) : t.mem.wf = true := by
  rcases step_mem_cases h with hmem | ⟨f, -, hmem⟩
  · rwa [hmem]
  · rw [hmem]
    exact Memory.wf_write _ _ _ hwf

/-- What happens to one byte in a step: nothing, or a CLR reached it (R27, R33). -/
theorem step_byte_cases (h : step s = .next t) (addr : Nat) :
    t.mem.read addr = s.mem.read addr ∨
      (t.mem.read addr = 0 ∧ kindAt s.cfg addr = .ram ∧ inCode s.cfg addr = false ∧ addr ≤ 0x01FFFE) := by
  rcases step_mem_cases h with hmem | ⟨f, ⟨-, hcode, hwritable⟩, hmem⟩
  · exact .inl (by rw [hmem])
  · rw [hmem]
    by_cases haddr : addr = effectiveAddress s f
    · subst haddr
      exact .inr ⟨Memory.read_write_same _ _ (effectiveAddress_le_top s f), by simpa [writable] using hwritable,
        hcode, effectiveAddress_le s f⟩
    · exact .inl (Memory.read_write_other _ _ haddr)

/-! ### A run -/

theorem run_keeps_x_y_cfg {n : Nat} (h : run n s = .next t) : t.x = s.x ∧ t.y = s.y ∧ t.cfg = s.cfg := by
  refine run_relation (P := fun s t => t.x = s.x ∧ t.y = s.y ∧ t.cfg = s.cfg) (fun _ => ⟨rfl, rfl, rfl⟩) ?_
    (fun _ _ => step_keeps_x_y_cfg) n s t h
  rintro s t u ⟨hx, hy, hcfg⟩ ⟨hx', hy', hcfg'⟩
  exact ⟨hx'.trans hx, hy'.trans hy, hcfg'.trans hcfg⟩

theorem run_keeps_wf {n : Nat} (hwf : s.mem.wf = true) (h : run n s = .next t) : t.mem.wf = true :=
  run_invariant (P := fun s => s.mem.wf = true) (fun _ _ => step_keeps_wf) n s t hwf h

/-- The parameters are the same and each byte is as it was, or a CLR has reached it. -/
def OnlyRamCleared (s t : State) : Prop :=
  t.cfg = s.cfg ∧ ∀ addr, t.mem.read addr = s.mem.read addr ∨
    (t.mem.read addr = 0 ∧ kindAt s.cfg addr = .ram ∧ inCode s.cfg addr = false ∧ addr ≤ 0x01FFFE)

theorem OnlyRamCleared.trans {u : State} (hst : OnlyRamCleared s t) (htu : OnlyRamCleared t u) :
    OnlyRamCleared s u := by
  obtain ⟨hcfg, hbyte⟩ := hst
  obtain ⟨hcfg', hbyte'⟩ := htu
  rw [hcfg] at hcfg' hbyte'
  refine ⟨hcfg', fun addr => ?_⟩
  rcases hbyte' addr with hsame | hcleared
  · rw [hsame]
    exact hbyte addr
  · exact .inr hcleared

theorem run_onlyRamCleared {n : Nat} (h : run n s = .next t) : OnlyRamCleared s t :=
  run_relation (P := OnlyRamCleared) (fun _ => ⟨rfl, fun _ => .inl rfl⟩) (fun _ _ _ => OnlyRamCleared.trans)
    (fun _ _ h => have ⟨_, _, hcfg⟩ := step_keeps_x_y_cfg h; ⟨hcfg, step_byte_cases h⟩) n s t h

end

/-- Settles O44: the one write is that of CLR mem, and `Memory.write` keeps the form. -/
theorem stepKeepsMemoryCanonical : Obligations.StepKeepsMemoryCanonical := fun _ _ => step_keeps_wf

/-- Settles O45: equality of X, Y and the parameters is carried from step to step. -/
theorem runKeepsFixedState : Obligations.RunKeepsFixedState := by
  intro n s t h
  obtain ⟨hx, hy, hcfg⟩ := run_keeps_x_y_cfg h
  exact ⟨hx, hy, hcfg, fun hlegal => hcfg ▸ hlegal⟩

/-- Settles O49: `OnlyRamCleared` is carried from step to step. -/
theorem runOnlyClearsRam : Obligations.RunOnlyClearsRam := fun _ _ _ h => (run_onlyRamCleared h).2

/-- Settles O48: what a run clears lies outside `CODE`. -/
theorem runKeepsCodeBytes : Obligations.RunKeepsCodeBytes := by
  intro n s t h addr hcode
  rcases (run_onlyRamCleared h).2 addr with hsame | ⟨-, -, houtside, -⟩
  · exact hsame
  · exact absurd hcode (by simp [houtside])

end Sys2Proof.Machine
end

section
/-! Fetching: what a step that completes has fetched, which refusal it answers before the instruction runs (R92 items
1 to 5), where it faults, and that a launched run ends where a run may begin. -/

namespace Sys2Proof.Machine

/-! ### The two parts of the fetch -/

/-- The checks made before the row is known (R92 items 1 and 2). -/
def headChecks (s : State) : List Check :=
  fetchCheck s s.pc.toNat ::
    if isPrecode (codeByte s 0) then [roomCheck s 1, fetchCheck s (s.pc.toNat + 1)] else []

/-- The checks made by the row, if there is one (R92 items 3 to 5). -/
def rowChecks (s : State) : List Check :=
  match fetchedRow s with
  | none => [⟨false, .notInTable⟩]
  | some row => roomCheck s row.length :: operandChecks s (headLength s) row.shape.operandBytes

section
variable {s : State}

theorem fetchChecks_eq (s : State) : fetchChecks s = headChecks s ++ rowChecks s := rfl

theorem headChecks_ok :
    (∀ c ∈ headChecks s, c.ok = true) ↔ inCode s.cfg s.pc.toNat = true ∧
      (isPrecode (s.mem.read s.pc.toNat) = true → s.pc.toNat < 0xFFFFFF ∧ inCode s.cfg (s.pc.toNat + 1) = true) := by
  have hroom : s.hasRoom 1 ↔ s.pc.toNat < 0xFFFFFF := Iff.rfl
  unfold headChecks codeByte
  cases isPrecode (s.mem.read (s.pc.toNat + 0)) <;> simp [hroom]

theorem operandChecks_refusal {k n : Nat} : ∀ c ∈ operandChecks s k n, c.refusal = .fetchOutsideCode := by
  induction n generalizing k with
  | zero => exact fun c hc => absurd hc List.not_mem_nil
  | succ n ih => exact List.forall_mem_cons.2 ⟨rfl, ih⟩

theorem firstRefusal_operandChecks {k n : Nat} {r : Refusal} (h : firstRefusal (operandChecks s k n) = some r) :
    r = .fetchOutsideCode := by
  obtain ⟨c, hc, -, rfl⟩ := firstRefusal_eq_some h
  exact operandChecks_refusal c hc

/-- Once the checks before it hold, the row's checks decide. -/
theorem firstRefusal_fetchChecks (h : ∀ c ∈ headChecks s, c.ok = true) :
    firstRefusal (fetchChecks s) = firstRefusal (rowChecks s) := by
  rw [fetchChecks_eq, firstRefusal_append, (firstRefusal_eq_none _).2 h, Option.none_or]

theorem fetchedInstr_eq_some {i : Instr} :
    fetchedInstr s = some i ↔ ∃ rest, decode (s.mem.readBytes s.pc.toNat 4) = .ok (i, rest) := by
  unfold fetchedInstr maxLength
  split
  · rename_i j rest hdecode
    simp [hdecode]
  · rename_i hdecode
    simp [hdecode]

/-! ### A step that runs an instruction -/

theorem step_final (h : s.final) : step s = .fault .final := if_pos h

/-- With every check before it passed, the instruction at PC is run and nothing is added to it. -/
theorem step_runs {i : Instr} {rest : List Byte} (hf : ¬ s.final) (hroom : s.hasRoom i.length)
    (hcode : ∀ k, k < i.length → inCode s.cfg (s.pc.toNat + k) = true)
    (hdecode : decode (s.mem.readBytes s.pc.toNat 4) = .ok (i, rest)) : step s = exec i s := by
  have hchecks : firstRefusal (fetchChecks s) = none :=
    (firstRefusal_eq_none _).2 ((fetchChecks_ok hdecode).2 ⟨hroom, hcode⟩)
  rw [step, if_neg (show ¬ isStop s.cfg s.pc = true from hf), hchecks, fetchedInstr_eq_some.2 ⟨rest, hdecode⟩]

/-- The bytes at PC that decode to an instruction begin with its encoding. -/
theorem readBytes_eq_encode {i : Instr} {rest : List Byte}
    (hdecode : decode (s.mem.readBytes s.pc.toNat 4) = .ok (i, rest)) :
    s.mem.readBytes s.pc.toNat i.length = encode i := by
  have hbytes := encode_of_decode hdecode
  have hlength := congrArg List.length hbytes
  rw [Memory.length_readBytes, List.length_append, length_encode] at hlength
  rw [readBytes_take _ _ i.length 4 (by omega), hbytes, ← length_encode, List.take_left]

theorem format_length_le (fmt : Format) : fmt.length ≤ 4 := by cases fmt <;> decide

/-- Bytes at PC that begin with an instruction's encoding decode to it. -/
theorem decode_of_readBytes {i : Instr} (h : s.mem.readBytes s.pc.toNat i.length = encode i) :
    ∃ rest, decode (s.mem.readBytes s.pc.toNat 4) = .ok (i, rest) := by
  rw [readBytes_take _ _ i.length 4 (format_length_le i.format)] at h
  refine ⟨(s.mem.readBytes s.pc.toNat 4).drop i.length, ?_⟩
  rw [← decode_encode, ← h, List.take_append_drop]

theorem exec_ne_fault (i : Instr) (s : State) (e : Fault) : exec i s ≠ .fault e := by
  obtain ⟨checks, result, m⟩ := exists_meaning i
  rw [m.exec_eq]
  exact answer_ne_fault _ _ _

/-- A step faults at a stop address alone: a fetch is refused and an instruction never faults (R89). -/
theorem final_of_step_fault {e : Fault} (h : step s = .fault e) : s.final := by
  by_contra hf
  rw [step, if_neg (show ¬ isStop s.cfg s.pc = true from hf)] at h
  split at h
  · cases h
  · split at h
    · exact exec_ne_fault _ _ _ h
    · cases h

/-! ### A step refused before an instruction runs -/

theorem step_outside_code (hf : ¬ s.final) (h : inCode s.cfg s.pc.toNat = false) :
    step s = .refused .fetchOutsideCode :=
  step_refused hf (firstRefusal_cons_fail h)

section
variable (hf : ¬ s.final) (hcode : inCode s.cfg s.pc.toNat = true)
include hf hcode

/-- After a precode in `CODE`, the checks of the byte after it come next. -/
theorem step_precode_refused {r : Refusal} (hp : isPrecode (s.mem.read s.pc.toNat) = true)
    (h : firstRefusal [roomCheck s 1, fetchCheck s (s.pc.toNat + 1)] = some r) : step s = .refused r := by
  refine step_refused hf ?_
  have hhead : headChecks s = fetchCheck s s.pc.toNat :: [roomCheck s 1, fetchCheck s (s.pc.toNat + 1)] :=
    congrArg _ (if_pos hp)
  rw [fetchChecks_eq, firstRefusal_append, hhead, firstRefusal_cons_ok hcode, h, Option.some_or]

theorem step_precode_at_top (hp : isPrecode (s.mem.read s.pc.toNat) = true) (htop : s.pc.toNat = 0xFFFFFF) :
    step s = .refused .pcWrap :=
  step_precode_refused hf hcode hp (firstRefusal_cons_fail (by simp [roomCheck, htop]))

theorem step_precode_then_outside_code (hp : isPrecode (s.mem.read s.pc.toNat) = true)
    (hroom : s.pc.toNat < 0xFFFFFF) (hnext : inCode s.cfg (s.pc.toNat + 1) = false) :
    step s = .refused .fetchOutsideCode := by
  refine step_precode_refused hf hcode hp ?_
  rw [firstRefusal_cons_ok ((roomCheck_ok s 1).2 hroom)]
  exact firstRefusal_cons_fail hnext

variable (hprecode : isPrecode (s.mem.read s.pc.toNat) = true →
  s.pc.toNat < 0xFFFFFF ∧ inCode s.cfg (s.pc.toNat + 1) = true)
include hprecode

theorem step_no_row (h : fetchedRow s = none) : step s = .refused .notInTable := by
  refine step_refused hf ?_
  rw [firstRefusal_fetchChecks (headChecks_ok.2 ⟨hcode, hprecode⟩), rowChecks, h]
  rfl

theorem step_no_room {i : Instr} {rest : List Byte} (hdecode : decode (s.mem.readBytes s.pc.toNat 4) = .ok (i, rest))
    (hroom : ¬ s.hasRoom i.length) : step s = .refused .pcWrap := by
  obtain ⟨r, hrow, hlength⟩ := decode_row hdecode
  refine step_refused hf ?_
  rw [firstRefusal_fetchChecks (headChecks_ok.2 ⟨hcode, hprecode⟩), rowChecks, hrow]
  refine firstRefusal_cons_fail (Bool.eq_false_iff.2 ?_)
  rwa [Ne, roomCheck_ok, ← hlength]

/-- Not every check of the fetch holds, and those that may still fail are the operand bytes'. -/
theorem step_operand_outside_code {i : Instr} {rest : List Byte}
    (hdecode : decode (s.mem.readBytes s.pc.toNat 4) = .ok (i, rest)) (hroom : s.hasRoom i.length)
    (houtside : ∃ k, k < i.length ∧ inCode s.cfg (s.pc.toNat + k) = false) :
    step s = .refused .fetchOutsideCode := by
  obtain ⟨r, hrow, hlength⟩ := decode_row hdecode
  have hrefusal : firstRefusal (fetchChecks s) =
      firstRefusal (operandChecks s (headLength s) r.shape.operandBytes) := by
    rw [firstRefusal_fetchChecks (headChecks_ok.2 ⟨hcode, hprecode⟩), rowChecks, hrow]
    exact firstRefusal_cons_ok ((roomCheck_ok s _).2 (hlength ▸ hroom))
  cases hfirst : firstRefusal (fetchChecks s) with
  | none =>
    obtain ⟨k, hk, hfalse⟩ := houtside
    have htrue := ((fetchChecks_ok hdecode).1 ((firstRefusal_eq_none _).1 hfirst)).2 k hk
    exact absurd htrue (by simp [hfalse])
  | some refusal =>
    rw [step_refused hf hfirst, firstRefusal_operandChecks (hrefusal.symm.trans hfirst)]

end
end

/-! ### The statements -/

/-- Settles O8: the conditions are those of checks 1 to 5. -/
theorem stepRunsDecoded : Obligations.StepRunsDecoded := fun _ _ _ hf _ => step_runs hf

/-- Settles O9: the checks passed and the bytes decoded, so they are the encoding. -/
theorem nextOnlyFromCode : Obligations.NextOnlyFromCode := by
  intro s t h
  obtain ⟨hstop, hchecks, i, hinstr, hexec⟩ := step_next_cases h
  obtain ⟨rest, hdecode⟩ := fetchedInstr_eq_some.1 hinstr
  obtain ⟨hroom, hcode⟩ := (fetchChecks_ok hdecode).1 hchecks
  exact ⟨by simp [State.final, hstop], i, hexec, hroom, readBytes_eq_encode hdecode, hcode⟩

/-- Settles O10: `Fault` has one value, which only the check of `STOP` gives. -/
theorem stopIsTheOnlyFault : Obligations.StopIsTheOnlyFault :=
  fun _ e => ⟨fun h => ⟨final_of_step_fault h, by cases e; rfl⟩, fun ⟨hf, he⟩ => he ▸ step_final hf⟩

/-- Settles O11: clause by clause, each under the checks before its own. -/
theorem fetchRefusalOrder : Obligations.FetchRefusalOrder := by
  intro s hf
  refine ⟨step_outside_code hf, fun hcode => ⟨step_precode_at_top hf hcode, step_precode_then_outside_code hf hcode,
    fun hp hroom hnext hrow => ?_, fun hp hrow => ?_, fun i rest hdecode hprecode => ⟨fun hroom => ?_,
      step_operand_outside_code hf hcode hprecode hdecode⟩⟩⟩
  · exact step_no_row hf hcode (fun _ => ⟨hroom, hnext⟩) ((if_pos hp).trans hrow)
  · exact step_no_row hf hcode (by simp [hp]) ((if_neg (by simp [codeByte, hp])).trans hrow)
  · exact step_no_room hf hcode hprecode hdecode (Nat.not_le.2 hroom)

/-- Settles O46: legality and the canonical form are carried on, and where PC lies decides the last clause. -/
theorem launchedRunStaysLegal : Obligations.LaunchedRunStaysLegal := by
  rintro n s t ⟨hlegal, hwf, -⟩ h
  obtain ⟨-, -, hcfg⟩ := run_keeps_x_y_cfg h
  have hlegal' : configLegal t.cfg := hcfg ▸ hlegal
  have hwf' := run_keeps_wf hwf h
  refine ⟨hlegal', hwf', ?_⟩
  by_cases hf : t.final
  · exact .inl ⟨hlegal', hwf', .inr hf⟩
  · cases hcode : inCode t.cfg t.pc.toNat with
    | true => exact .inl ⟨hlegal', hwf', .inl hcode⟩
    | false => exact .inr (step_outside_code hf hcode)

end Sys2Proof.Machine
end

section
/-! Which refusals there are and when an instruction answers each (R32, R33, R56, R87, R90, R92 items 5 to 8). -/

namespace Sys2Proof.Machine

/-! ### The refusals of an instruction that fits -/

/-- What an instruction that fits may be refused with, the two optional refusals under their cautious readings. -/
def OperandRefusal (c : Config) (r : Refusal) : Prop :=
  r = .readNotAdmitted ∨ r = .writeNotAdmitted ∨ r = .writeToCode ∨
  (r = .eaCarry ∧ c.eaPolicy = .refuse) ∨ (r = .spWrap ∧ c.spPolicy = .refuse)

section
variable {s : State}

theorem readCheck_refusal (addr : Nat) : OperandRefusal s.cfg (readCheck s addr).refusal := .inl rfl

theorem carryCheck_refusal {f : MemForm} (h : (carryCheck s f).ok = false) :
    OperandRefusal s.cfg (carryCheck s f).refusal := by
  refine .inr (.inr (.inr (.inl ⟨rfl, ?_⟩)))
  cases hpolicy : s.cfg.eaPolicy with
  | carry => simp [carryCheck, hpolicy] at h
  | refuse => rfl

theorem addressChecks_refusal {f : MemForm} {c : Check} (hc : c ∈ addressChecks s f) (h : c.ok = false) :
    OperandRefusal s.cfg c.refusal := by
  rcases List.mem_append.1 hc with hc | hc
  · unfold pointerChecks at hc
    split at hc
    · exact absurd hc List.not_mem_nil
    · rcases List.mem_pair.1 hc with rfl | rfl <;> exact readCheck_refusal _
  · rw [List.mem_singleton.1 hc] at h ⊢
    exact carryCheck_refusal h

theorem sourceChecks_refusal {src : Source} {c : Check} (hc : c ∈ sourceChecks s src) (h : c.ok = false) :
    OperandRefusal s.cfg c.refusal := by
  cases src with
  | imm m => exact absurd hc List.not_mem_nil
  | mem f =>
    rcases List.mem_append.1 hc with hc | hc
    · exact addressChecks_refusal hc h
    · rw [List.mem_singleton.1 hc]
      exact readCheck_refusal _

theorem destChecks_refusal {f : MemForm} {c : Check} (hc : c ∈ destChecks s f) (h : c.ok = false) :
    OperandRefusal s.cfg c.refusal := by
  rcases List.mem_append.1 hc with hc | hc
  · exact addressChecks_refusal hc h
  · rcases List.mem_pair.1 hc with rfl | rfl
    · exact .inr (.inr (.inl rfl))
    · exact .inr (.inl rfl)

theorem spCheck_refusal {b : Bool} (h : (s.cfg.spPolicy == .wrap || b) = false) :
    OperandRefusal s.cfg .spWrap := by
  refine .inr (.inr (.inr (.inr ⟨rfl, ?_⟩)))
  cases hpolicy : s.cfg.spPolicy with
  | wrap => simp [hpolicy] at h
  | refuse => rfl

/-- Every instruction first asks for room and then its own checks. -/
theorem exec_eq_answer (i : Instr) (s : State) :
    ∃ checks t, exec i s = answer (roomCheck s i.length :: checks) t ∧
      ∀ c ∈ checks, c.ok = false → OperandRefusal s.cfg c.refusal := by
  rcases instr_cases i with ⟨src, rfl⟩ | ⟨src, rfl⟩ | rfl | ⟨f, rfl⟩ | ⟨v, rfl⟩ | ⟨v, rfl⟩ | ⟨src, rfl⟩ | ⟨v, rfl⟩
  · exact ⟨_, _, exec_addInstr src s, fun _ => sourceChecks_refusal⟩
  · exact ⟨_, _, exec_ldInstr src s, fun _ => sourceChecks_refusal⟩
  · exact ⟨[], _, rfl, fun _ hc => absurd hc List.not_mem_nil⟩
  · exact ⟨_, _, exec_clrInstr f s, fun _ => destChecks_refusal⟩
  · exact ⟨[], _, rfl, fun _ hc => absurd hc List.not_mem_nil⟩
  · refine ⟨[readCheck s v.toNat, readCheck s (v.toNat + 1), readCheck s (v.toNat + 2)], _, rfl, ?_⟩
    simp only [List.forall_mem_cons]
    exact ⟨fun _ => readCheck_refusal _, fun _ => readCheck_refusal _, fun _ => readCheck_refusal _,
      fun _ hc => absurd hc List.not_mem_nil⟩
  · exact ⟨_, _, exec_subInstr src s, fun _ => sourceChecks_refusal⟩
  · refine ⟨[⟨s.cfg.spPolicy == .wrap || v.toNat ≤ s.sp.toNat, .spWrap⟩], _, rfl, fun c hc h => ?_⟩
    rw [List.mem_singleton.1 hc] at h ⊢
    exact spCheck_refusal h

theorem exec_no_room (i : Instr) (h : ¬ s.hasRoom i.length) : exec i s = .refused .pcWrap := by
  obtain ⟨checks, t, hexec, -⟩ := exec_eq_answer i s
  rw [hexec, answer_no_room s _ _ _ h]

theorem exec_room_refusal {i : Instr} {r : Refusal} (hroom : s.hasRoom i.length) (h : exec i s = .refused r) :
    OperandRefusal s.cfg r := by
  obtain ⟨checks, t, hexec, hchecks⟩ := exec_eq_answer i s
  rw [hexec, answer_room s _ _ _ hroom, answer_refused] at h
  obtain ⟨c, hc, hfail, rfl⟩ := firstRefusal_eq_some h
  exact hchecks c hc hfail

/-! ### The refusals of a step -/

theorem fetchChecks_refusal {c : Check} (hc : c ∈ fetchChecks s) :
    c.refusal = .fetchOutsideCode ∨ c.refusal = .pcWrap ∨ c.refusal = .notInTable := by
  rcases List.mem_append.1 hc with hc | hc
  · rcases List.mem_cons.1 hc with rfl | hc
    · exact .inl rfl
    · split at hc
      · rcases List.mem_pair.1 hc with rfl | rfl
        · exact .inr (.inl rfl)
        · exact .inl rfl
      · exact absurd hc List.not_mem_nil
  · split at hc
    · rw [List.mem_singleton.1 hc]
      exact .inr (.inr rfl)
    · rcases List.mem_cons.1 hc with rfl | hc
      · exact .inr (.inl rfl)
      · exact .inl (operandChecks_refusal c hc)

/-- A step is refused by the fetch or by the instruction it runs. -/
theorem step_refused_cases {r : Refusal} (h : step s = .refused r) :
    (∃ c ∈ fetchChecks s, c.refusal = r) ∨ r = .notInTable ∨ ∃ i, exec i s = .refused r := by
  unfold step at h
  split at h
  · cases h
  · split at h
    · rename_i hfirst
      cases h
      obtain ⟨c, hc, -, hr⟩ := firstRefusal_eq_some hfirst
      exact .inl ⟨c, hc, hr⟩
    · split at h
      · exact .inr (.inr ⟨_, h⟩)
      · cases h
        exact .inr (.inl rfl)

end

/-- Settles O13: the check of room comes first, and no other check of an instruction names PcWrap. -/
theorem pcWrapExactly : Obligations.PcWrapExactly := by
  intro i s
  rw [← Nat.not_le]
  refine ⟨fun h hroom => ?_, exec_no_room i⟩
  rcases exec_room_refusal hroom h with h | h | h | ⟨h, -⟩ | ⟨h, -⟩ <;> cases h

/-- Settles O12: the refusals of the fetch, of an instruction without room and of one with room. -/
theorem outcomesAreClosed : Obligations.OutcomesAreClosed := by
  intro s r h
  rcases step_refused_cases h with ⟨c, hc, rfl⟩ | rfl | ⟨i, hexec⟩
  · rcases fetchChecks_refusal hc with hr | hr | hr <;> simp [hr]
  · simp
  · by_cases hroom : s.hasRoom i.length
    · rcases exec_room_refusal hroom hexec with hr | hr | hr | hr | hr <;> simp [hr]
    · rw [exec_no_room i hroom] at hexec
      cases hexec
      simp

/-! ### Which check of an operand decides -/

section
variable {s : State} {f : MemForm}

/-- Reads of several bytes, one of which may not be read. -/
theorem firstRefusal_readChecks {addrs : List Nat} (h : ∃ addr ∈ addrs, readable s.cfg addr = false) :
    firstRefusal (addrs.map (readCheck s)) = some .readNotAdmitted := by
  obtain ⟨addr, hmem, hread⟩ := h
  cases hfirst : firstRefusal (addrs.map (readCheck s)) with
  | none =>
    have hok := (firstRefusal_eq_none _).1 hfirst _ (List.mem_map_of_mem hmem)
    exact absurd (hread.symm.trans hok) Bool.false_ne_true
  | some r =>
    obtain ⟨c, hc, -, rfl⟩ := firstRefusal_eq_some hfirst
    obtain ⟨_, -, rfl⟩ := List.mem_map.1 hc
    rfl

theorem firstRefusal_pointer {p : Nat} (hp : pointerAddress f = some p)
    (h : readable s.cfg p = false ∨ readable s.cfg (p + 1) = false) :
    firstRefusal (addressChecks s f) = some .readNotAdmitted := by
  have hpointer : firstRefusal ([p, p + 1].map (readCheck s)) = some .readNotAdmitted :=
    firstRefusal_readChecks (by simpa using h)
  rw [addressChecks, firstRefusal_append, pointerChecks, hp]
  exact congrArg (Option.or · _) hpointer

theorem firstRefusal_carry
    (hp : ∀ p, pointerAddress f = some p → readable s.cfg p = true ∧ readable s.cfg (p + 1) = true)
    (hpolicy : s.cfg.eaPolicy = .refuse) (hcarry : 0x10000 ≤ effectiveAddress s f) :
    firstRefusal (addressChecks s f) = some .eaCarry := by
  have hfail : (carryCheck s f).ok = false := by simpa [carryCheck, hpolicy] using hcarry
  rw [addressChecks, firstRefusal_append, (firstRefusal_eq_none _).2 ((pointerChecks_ok s f).2 hp), Option.none_or]
  exact firstRefusal_cons_fail hfail

theorem firstRefusal_admitted (h : addressAdmitted s f) : firstRefusal (addressChecks s f) = none :=
  (firstRefusal_eq_none _).2 ((addressChecks_ok s f).2 h)

/-- Where an instruction fits and asks for an address before all else, a failing check of the address decides. -/
theorem exec_refused_of_address {i : Instr} {checks : List Check} {t : State} {r : Refusal} (hroom : s.hasRoom i.length)
    (hexec : exec i s = answer (roomCheck s i.length :: (addressChecks s f ++ checks)) t)
    (h : firstRefusal (addressChecks s f) = some r) : exec i s = .refused r := by
  rw [hexec, answer_room s _ _ _ hroom, answer_refused, firstRefusal_append, h, Option.some_or]

/-- And where the address is admitted, the checks after it decide. -/
theorem exec_refused_after_address {i : Instr} {checks : List Check} {t : State} {r : Refusal}
    (hroom : s.hasRoom i.length)
    (hexec : exec i s = answer (roomCheck s i.length :: (addressChecks s f ++ checks)) t)
    (h : addressAdmitted s f) (hchecks : firstRefusal checks = some r) : exec i s = .refused r := by
  rw [hexec, answer_room s _ _ _ hroom, answer_refused, firstRefusal_append, firstRefusal_admitted h, hchecks,
    Option.none_or]

/-- ADD, LD and SUB A ask the same checks of the same source. -/
theorem exec_source_eq_answer {i : Instr} {src : Source} (hi : i = addInstr src ∨ i = ldInstr src ∨ i = subInstr src) :
    ∃ t, exec i s = answer (roomCheck s i.length :: sourceChecks s src) t := by
  rcases hi with rfl | rfl | rfl
  · exact ⟨_, exec_addInstr src s⟩
  · exact ⟨_, exec_ldInstr src s⟩
  · exact ⟨_, exec_subInstr src s⟩

end

/-- Settles O21: the checks of the pointer, of the carry and of the data byte, in their order. -/
theorem sourceRefusals : Obligations.SourceRefusals := by
  intro f s i hi hroom
  obtain ⟨t, hexec⟩ := exec_source_eq_answer (s := s) hi
  refine ⟨fun p hp h => ?_, fun hp hpolicy hcarry => ?_, fun hadmitted hread => ?_, readable_eq_false s.cfg,
    fun hadmitted hkind => ?_⟩
  · exact exec_refused_of_address hroom hexec (firstRefusal_pointer hp h)
  · exact exec_refused_of_address hroom hexec (firstRefusal_carry hp hpolicy hcarry)
  · exact exec_refused_after_address hroom hexec hadmitted (firstRefusal_cons_fail hread)
  · have hread : readable s.cfg (effectiveAddress s f) = true := by
      rcases hkind with hkind | hkind <;> simp [readable, hkind]
    refine ⟨t, hexec ▸ (answer_next _ _ _).2 ⟨List.forall_mem_cons.2 ⟨(roomCheck_ok s _).2 hroom, ?_⟩, rfl⟩⟩
    exact (sourceChecks_ok s (.mem f)).2 ⟨hadmitted, hread⟩

/-- Settles O32: the checks of the pointer, of the carry, of `CODE` and of the map, in their order. -/
theorem clearRefusals : Obligations.ClearRefusals := by
  intro f s hroom
  have hexec := exec_clrInstr f s
  refine ⟨fun p hp h => ?_, fun hp hpolicy hcarry => ?_, fun hadmitted hcode => ?_,
    fun hadmitted hcode hwrite => ?_, writable_eq_false s.cfg, readable_eq_false s.cfg⟩
  · exact exec_refused_of_address hroom hexec (firstRefusal_pointer hp h)
  · exact exec_refused_of_address hroom hexec (firstRefusal_carry hp hpolicy hcarry)
  · exact exec_refused_after_address hroom hexec hadmitted (firstRefusal_cons_fail (by simp [hcode]))
  · refine exec_refused_after_address hroom hexec hadmitted ?_
    rw [writeChecks, firstRefusal_cons_ok (by simp [hcode])]
    exact firstRefusal_cons_fail hwrite

/-! ### Plain RAM -/

section
variable {s : State}

theorem fitsAt_iff {i : Instr} : i.fitsAt s.pc = true ↔ s.hasRoom i.length := by
  simp [Instr.fitsAt, State.hasRoom]

theorem plainRam_readable {addr : Nat} (h : plainRam s.cfg) (haddr : addr ≤ 0xFFFFFF) :
    readable s.cfg addr = true := by simp [readable, h.1 addr haddr]

theorem plainRam_addressAdmitted (h : plainRam s.cfg) (f : MemForm) : addressAdmitted s f := by
  refine ⟨fun p hp => ?_, .inl h.2.1⟩
  have := pointerAddress_le hp
  exact ⟨plainRam_readable h (by omega), plainRam_readable h (by omega)⟩

theorem plainRam_sourceAdmitted (h : plainRam s.cfg) (src : Source) : sourceAdmitted s src := by
  cases src with
  | imm m => trivial
  | mem f => exact ⟨plainRam_addressAdmitted h f, plainRam_readable h (effectiveAddress_le_top s f)⟩

theorem plainRam_destAdmitted {f : MemForm} (h : plainRam s.cfg)
    (hcode : inCode s.cfg (effectiveAddress s f) = false) : destAdmitted s f :=
  ⟨plainRam_addressAdmitted h f, hcode, by simp [writable, h.1 _ (effectiveAddress_le_top s f)]⟩

end

/-- Settles O39: on plain RAM the check of room and that of `CODE` are the only ones that can fail. -/
theorem everyInstructionCompletesOnPlainRam : Obligations.EveryInstructionCompletesOnPlainRam := by
  intro i s hplain hfits hcode
  have hroom := fitsAt_iff.1 hfits
  rcases instr_cases i with ⟨src, rfl⟩ | ⟨src, rfl⟩ | rfl | ⟨f, rfl⟩ | ⟨v, rfl⟩ | ⟨v, rfl⟩ | ⟨src, rfl⟩ | ⟨v, rfl⟩
  · exact ⟨_, (exec_add_next ..).2 ⟨⟨hroom, plainRam_sourceAdmitted hplain src⟩, rfl⟩⟩
  · exact ⟨_, (exec_ld_next ..).2 ⟨⟨hroom, plainRam_sourceAdmitted hplain src⟩, rfl⟩⟩
  · exact ⟨_, (exec_clrA_next ..).2 ⟨hroom, rfl⟩⟩
  · exact ⟨_, (exec_clr_next ..).2 ⟨⟨hroom, plainRam_destAdmitted hplain (hcode f rfl)⟩, rfl⟩⟩
  · exact ⟨_, (exec_jpfExtmem_next ..).2 ⟨hroom, rfl⟩⟩
  · have := v.isLt
    exact ⟨_, (exec_jpfLongptr_next ..).2 ⟨⟨hroom, plainRam_readable hplain (by omega),
      plainRam_readable hplain (by omega), plainRam_readable hplain (by omega)⟩, rfl⟩⟩
  · exact ⟨_, (exec_sub_next ..).2 ⟨⟨hroom, plainRam_sourceAdmitted hplain src⟩, rfl⟩⟩
  · exact ⟨_, (exec_subSP_next ..).2 ⟨⟨hroom, .inl hplain.2.2⟩, rfl⟩⟩

end Sys2Proof.Machine
end

section
/-! ADD, LD, SUB A: the whole next state in arithmetic terms (R73, R74, R76, R77, R85, R86), and SUB of a byte against
ADD of its negation (R88). -/

namespace Sys2Proof.Machine

theorem add_ofNat_pc (pc : ExtAddr) (len : Nat) : pc + BitVec.ofNat 24 len = BitVec.ofNat 24 (pc.toNat + len) := by
  rw [BitVec.ofNat_add, BitVec.ofNat_toNat, BitVec.setWidth_eq]

/-! ### The flags -/

section
variable (f : Flags) (a m : Byte)

theorem Flags.afterAdd_eq :
    f.afterAdd a m = { f with
      v := decide (a.toInt + m.toInt < -128 ∨ 127 < a.toInt + m.toInt)
      h := decide (16 ≤ a.toNat % 16 + m.toNat % 16)
      n := decide (128 ≤ (a.toNat + m.toNat) % 256)
      z := decide ((a.toNat + m.toNat) % 256 = 0)
      c := decide (256 ≤ a.toNat + m.toNat) } := by
  rw [← afterAdd_v_eq_overflow f, ← carryOut_three, ← carryOut_seven, ← toNat_add_byte, ← negative_eq, ← isZero_eq]
  rfl

theorem Flags.afterSub_eq :
    f.afterSub a m = { f with
      v := decide (a.toInt - m.toInt < -128 ∨ 127 < a.toInt - m.toInt)
      n := decide (128 ≤ (a.toNat + 256 - m.toNat) % 256)
      z := decide ((a.toNat + 256 - m.toNat) % 256 = 0)
      c := decide (a.toNat < m.toNat) } := by
  rw [← afterSub_v_eq_overflow f, ← borrowOut_seven, ← toNat_sub_byte, ← negative_eq, ← isZero_eq]
  rfl

theorem Flags.afterLoad_eq :
    f.afterLoad m = { f with n := decide (128 ≤ m.toNat), z := decide (m.toNat = 0) } := by
  rw [← negative_eq, ← isZero_eq]
  rfl

end

/-! ### The next state -/

theorem add_eq_ofNat_byte (a m : Byte) : a + m = BitVec.ofNat 8 ((a.toNat + m.toNat) % 256) := by
  rw [← toNat_add_byte, BitVec.ofNat_toNat, BitVec.setWidth_eq]

theorem sub_eq_ofNat_byte (a m : Byte) : a - m = BitVec.ofNat 8 ((a.toNat + 256 - m.toNat) % 256) := by
  rw [← toNat_sub_byte, BitVec.ofNat_toNat, BitVec.setWidth_eq]

/-- Settles O17: `exec_add_next` gives the next state, whose fields are put in arithmetic terms. -/
theorem addCompletes : Obligations.AddCompletes := by
  intro src s hroom hsrc a m r
  rw [(exec_add_next ..).2 ⟨⟨hroom, hsrc⟩, rfl⟩, ← add_ofNat_pc, ← add_eq_ofNat_byte, ← Flags.afterAdd_eq]
  rfl

/-- Settles O18: `exec_ld_next` gives the next state, whose fields are put in arithmetic terms. -/
theorem loadCompletes : Obligations.LoadCompletes := by
  intro src s hroom hsrc m
  rw [(exec_ld_next ..).2 ⟨⟨hroom, hsrc⟩, rfl⟩, ← add_ofNat_pc, ← Flags.afterLoad_eq]
  rfl

/-- Settles O19: `exec_sub_next` gives the next state, whose fields are put in arithmetic terms. -/
theorem subtractCompletes : Obligations.SubtractCompletes := by
  intro src s hroom hsrc a m r
  rw [(exec_sub_next ..).2 ⟨⟨hroom, hsrc⟩, rfl⟩, ← add_ofNat_pc, ← sub_eq_ofNat_byte, ← Flags.afterSub_eq]
  rfl

/-! ### SUB against ADD of the negation -/

section
variable (f : Flags) (a m : Byte)

/-- The borrow of SUB is no carry of ADD, but for 0, where there is neither. -/
theorem afterSub_c_eq_not_afterAdd_neg (h : m ≠ 0) : (f.afterSub a m).c = !(f.afterAdd a (-m)).c := by
  have := a.isLt
  have := m.isLt
  have hm : m.toNat ≠ 0 := fun hm => h (BitVec.eq_of_toNat_eq hm)
  rw [Flags.afterSub_c, Flags.afterAdd_c, borrowOut_seven, carryOut_seven, ← decide_not, BitVec.toNat_neg]
  exact decide_eq_decide.2 (by omega)

/-- -128 is its own negation and no other byte's signed value is lost by negation. -/
theorem toInt_neg_byte (h : m ≠ 0x80) : (-m).toInt = -m.toInt := by
  have := m.isLt
  have hm : m.toNat ≠ 128 := fun hm => h (BitVec.eq_of_toNat_eq hm)
  rw [toInt_byte, toInt_byte, BitVec.toNat_neg]
  split <;> split <;> omega

theorem afterSub_v_eq_afterAdd_neg (h : m ≠ 0x80) : (f.afterSub a m).v = (f.afterAdd a (-m)).v := by
  rw [afterSub_v_eq_overflow, afterAdd_v_eq_overflow, toInt_neg_byte m h, Int.sub_eq_add_neg]

theorem afterSub_v_of_0x80 : (f.afterSub a 0x80).v = !a.getLsbD 7 := by
  have := a.isLt
  have h80 : (0x80 : Byte).toInt = -128 := rfl
  rw [afterSub_v_eq_overflow, getLsbD_seven, ← decide_not, toInt_byte, h80]
  refine decide_eq_decide.2 ?_
  split <;> omega

theorem afterAdd_v_of_0x80 : (f.afterAdd a 0x80).v = a.getLsbD 7 := by
  have := a.isLt
  have h80 : (0x80 : Byte).toInt = -128 := rfl
  rw [afterAdd_v_eq_overflow, getLsbD_seven, toInt_byte, h80]
  refine decide_eq_decide.2 ?_
  split <;> omega

end

/-- Settles O24: the results are equal, C by unsigned and V by signed comparison. -/
theorem subIsNotAddOfNegation : Obligations.SubIsNotAddOfNegation := by
  intro f a m
  have hresult : a - m = a + -m := BitVec.sub_eq_add_neg a m
  refine ⟨hresult, congrArg negative hresult, congrArg isZero hresult, afterSub_c_eq_not_afterAdd_neg f a m, ?_,
    afterSub_v_eq_afterAdd_neg f a m, ?_⟩
  · rintro rfl
    rw [Flags.afterSub_c, Flags.afterAdd_c, borrowOut_seven, carryOut_seven]
    exact ⟨decide_eq_false (Nat.not_lt_zero _), decide_eq_false (Nat.not_le.2 a.isLt)⟩
  · rintro rfl
    exact ⟨afterSub_v_of_0x80 f a, afterAdd_v_of_0x80 f a⟩

end Sys2Proof.Machine
end

section
/-! CLR A and CLR mem: the whole next state, what the next load sees, and a clear of its own pointer (R79, R80, R103,
20_memory section 9). -/

namespace Sys2Proof.Machine

/-! ### CLR A -/

section
variable {s : State}

theorem exec_clrA_eq (hroom : s.hasRoom 1) :
    exec .clrA s = .next { s with
      a := 0
      flags := { s.flags with n := false, z := true }
      pc := BitVec.ofNat 24 (s.pc.toNat + 1) } := by
  rw [(exec_clrA_next ..).2 ⟨hroom, rfl⟩, ← add_ofNat_pc]
  rfl

theorem decode_clrA (h : s.mem.read s.pc.toNat = 0x4F) :
    ∃ rest, decode (s.mem.readBytes s.pc.toNat 4) = .ok (.clrA, rest) :=
  decode_of_readBytes (congrArg (· :: []) h)

end

/-- Settles O30: the byte 4F is no precode, so it alone decides what a step does there. -/
theorem clearACompletes : Obligations.ClearACompletes := by
  refine ⟨rfl, rfl, rfl, fun s => ⟨exec_clrA_eq, exec_no_room .clrA, fun hf hbyte => ?_⟩⟩
  obtain ⟨rest, hdecode⟩ := decode_clrA hbyte
  refine ⟨fun hcode hroom => ?_, fun hcode hroom => ?_, step_outside_code hf⟩
  · rw [step_runs (i := .clrA) hf hroom (fun k hk => ?_) hdecode, exec_clrA_eq hroom]
    obtain rfl : k = 0 := Nat.lt_one_iff.1 hk
    exact hcode
  · refine step_no_room hf hcode (fun hp => ?_) hdecode hroom
    rw [hbyte] at hp
    cases hp

/-! ### CLR mem -/

/-- Settles O31: `exec_clr_next` gives the next state, and the one byte written is in the address space. -/
theorem clearMemoryCompletes : Obligations.ClearMemoryCompletes := by
  intro f s hroom hdest
  refine ⟨_, (exec_clr_next ..).2 ⟨⟨hroom, hdest⟩, rfl⟩, Memory.read_write_same _ _ (effectiveAddress_le_top s f),
    fun addr => Memory.read_write_other _ _, ?_⟩
  rw [← add_ofNat_pc]
  rfl

/-- Settles O42: the fields of the next state, and `Memory.read_write_other`. -/
theorem frameOfClearMemory : Obligations.FrameOfClearMemory := by
  intro f s t h
  obtain ⟨-, rfl⟩ := (exec_clr_next ..).1 h
  exact ⟨rfl, rfl, rfl, rfl, rfl, rfl, rfl, rfl, rfl, rfl, fun addr => Memory.read_write_other _ _⟩

/-! ### The load after a clear -/

section
variable {s t : State}

theorem readable_of_writable {c : Config} {addr : Nat} (h : writable c addr = true) : readable c addr = true := by
  have hram : kindAt c addr = .ram := by simpa [writable] using h
  simp [readable, hram]

/-- A load of a byte that is 0 leaves A 0, Z set and N clear. -/
theorem exec_ld_of_zero {g : MemForm} (hroom : t.hasRoom (ldInstr (.mem g)).length) (hadmitted : addressAdmitted t g)
    (hread : readable t.cfg (effectiveAddress t g) = true) (hzero : t.mem.read (effectiveAddress t g) = 0) :
    ∃ u, exec (ldInstr (.mem g)) t = .next u ∧ u.a = 0 ∧ u.flags.z = true ∧ u.flags.n = false := by
  have hexec := (exec_ld_next (.mem g) t _).2 ⟨⟨hroom, hadmitted, hread⟩, rfl⟩
  obtain ⟨ha, hflags⟩ := exec_ld_a_flags hexec
  rw [show sourceByte t (.mem g) = 0 from hzero] at ha hflags
  exact ⟨_, hexec, ha, congrArg Flags.z hflags, congrArg Flags.n hflags⟩

/-- A form's address depends on its registers, the byte order and the bytes of its pointer alone. -/
theorem effectiveAddress_congr {f : MemForm} (hx : t.x = s.x) (hy : t.y = s.y) (hsp : t.sp = s.sp)
    (hcfg : t.cfg = s.cfg) (hmem : ∀ p, pointerAddress f = some p →
      t.mem.read p = s.mem.read p ∧ t.mem.read (p + 1) = s.mem.read (p + 1)) :
    effectiveAddress t f = effectiveAddress s f := by
  have hptr (p : Nat) (hp : pointerAddress f = some p) : pointerWord t p = pointerWord s p := by
    obtain ⟨hfirst, hsecond⟩ := hmem p hp
    simp only [pointerWord, hcfg, hfirst, hsecond]
  cases f with
  | shortmem | longmem | atX | shortoffX | longoffX | atY | shortoffY | longoffY | shortoffSP =>
    simp only [effectiveAddress, hx, hy, hsp]
  | shortptr | longptr | shortptrX | longptrX | shortptrY => simp only [effectiveAddress, hx, hy, hptr _ rfl]

theorem addressAdmitted_congr {f : MemForm} (hcfg : t.cfg = s.cfg) (haddr : effectiveAddress t f = effectiveAddress s f)
    (h : addressAdmitted s f) : addressAdmitted t f := by
  unfold addressAdmitted
  rwa [hcfg, haddr]

end

/-- Settles O33: the byte cleared may be read and is 0, and the form's own address is what it was. -/
theorem loadAfterClearReadsZero : Obligations.LoadAfterClearReadsZero := by
  intro f s t h
  obtain ⟨⟨-, hadmitted, -, hwrite⟩, rfl⟩ := (exec_clr_next ..).1 h
  generalize ht : clrResult s f (clrInstr f).length = t
  have hmem : t.mem = s.mem.write (effectiveAddress s f) 0 := by rw [← ht]; rfl
  have hcfg : t.cfg = s.cfg := by rw [← ht]; rfl
  have hread : readable t.cfg (effectiveAddress s f) = true := hcfg ▸ readable_of_writable hwrite
  have hzero : t.mem.read (effectiveAddress s f) = 0 :=
    hmem ▸ Memory.read_write_same _ _ (effectiveAddress_le_top s f)
  refine ⟨fun g hroom hg haddr => exec_ld_of_zero hroom hg (haddr ▸ hread) (haddr ▸ hzero), fun hroom hown => ?_⟩
  have haddr : effectiveAddress t f = effectiveAddress s f := by
    refine effectiveAddress_congr (by rw [← ht]; rfl) (by rw [← ht]; rfl) (by rw [← ht]; rfl) hcfg fun p hp => ?_
    obtain ⟨hfirst, hsecond⟩ := hown p hp
    rw [hmem]
    exact ⟨Memory.read_write_other _ _ hfirst.symm, Memory.read_write_other _ _ hsecond.symm⟩
  exact ⟨haddr, exec_ld_of_zero hroom (addressAdmitted_congr hcfg haddr hadmitted) (haddr ▸ hread) (haddr ▸ hzero)⟩

/-- Settles O34: the address is the pointer and the index in the state before, and the other pointer byte is kept. -/
theorem clearReadsPointerFirst : Obligations.ClearReadsPointerFirst := by
  intro f s p hp hroom hdest first second pointer index
  have hpointer : (pointerWord s p).toNat = pointer := pointerWord_toNat p s
  have haddr : effectiveAddress s f = pointer + index := by
    rw [← hpointer]
    cases f with
    | shortmem | longmem | atX | shortoffX | longoffX | atY | shortoffY | longoffY | shortoffSP => cases hp
    | shortptr | longptr | shortptrX | longptrX | shortptrY => cases hp; rfl
  obtain ⟨t, hexec, hzero, hother, -⟩ := clearMemoryCompletes f s hroom hdest
  rw [haddr] at hzero hother
  refine ⟨fun hfirst => ⟨t, hexec, ?_, ?_⟩, fun hsecond => ⟨t, hexec, ?_, ?_⟩⟩
  · rwa [hfirst] at hzero
  · exact hother _ (by omega)
  · exact hother _ (by omega)
  · rwa [hsecond] at hzero

end Sys2Proof.Machine
end

section
/-! JPF and SUB SP,#byte: the whole next state, as an instruction and as a step, and their refusals (R82, R83, R87). -/

namespace Sys2Proof.Machine

/-! ### JPF extmem -/

section
variable {s : State} {target : ExtAddr}

theorem exec_jpfExtmem_eq (hroom : s.hasRoom 4) : exec (.jpfExtmem target) s = .next { s with pc := target } :=
  (exec_jpfExtmem_next ..).2 ⟨hroom, rfl⟩

theorem step_jpfExtmem (hf : ¬ s.final) (hbytes : s.mem.readBytes s.pc.toNat 4 = encode (.jpfExtmem target))
    (hroom : s.hasRoom 4) (hcode : ∀ k, k < 4 → inCode s.cfg (s.pc.toNat + k) = true) :
    step s = .next { s with pc := target } := by
  obtain ⟨rest, hdecode⟩ := decode_of_readBytes (i := .jpfExtmem target) hbytes
  rw [step_runs (i := .jpfExtmem target) hf hroom hcode hdecode, exec_jpfExtmem_eq hroom]

/-- The opcode byte of JPF extmem is no precode. -/
theorem jpfExtmem_no_precode (hbytes : s.mem.readBytes s.pc.toNat 4 = encode (.jpfExtmem target)) :
    isPrecode (s.mem.read s.pc.toNat) = false := by
  have hopcode : s.mem.read s.pc.toNat = 0xAC := (List.cons.inj hbytes).1
  rw [hopcode]
  rfl

end

/-- Settles O35: as an instruction by `exec_jpfExtmem_eq`, as a step by the checks of the fetch, here and at the
target. -/
theorem jumpFarCompletes : Obligations.JumpFarCompletes := by
  refine ⟨fun e h l => congrArg (0xAC :: ·) (extOperand_append e h l), fun target s => ⟨rfl, rfl, exec_jpfExtmem_eq,
    exec_no_room (.jpfExtmem target), fun hf hbytes => ⟨step_jpfExtmem hf hbytes, fun hroom houtside => ?_,
      fun hroom hcode => ?_⟩, step_outside_code⟩⟩
  all_goals
    obtain ⟨rest, hdecode⟩ := decode_of_readBytes (i := .jpfExtmem target) hbytes
    have hprecode := jpfExtmem_no_precode hbytes
  · cases hcode : inCode s.cfg s.pc.toNat with
    | false => exact step_outside_code hf hcode
    | true => exact step_operand_outside_code hf hcode (by simp [hprecode]) hdecode hroom houtside
  · exact step_no_room hf hcode (by simp [hprecode]) hdecode hroom

/-- Settles O37: one step of the loop gives the state it began in, and so does any number. -/
theorem jumpToSelfRunsForEver : Obligations.JumpToSelfRunsForEver := by
  intro s hf hroom hbytes hcode n
  have hstep : step s = .next s := step_jpfExtmem hf hbytes hroom hcode
  induction n with
  | zero => exact run_zero s
  | succ n ih => rw [run_succ, hstep]; exact ih

/-! ### JPF [longptr.e] -/

/-- Settles O36: room, then the three bytes of the pointer. -/
theorem jumpFarIndirectCompletes : Obligations.JumpFarIndirectCompletes := by
  refine ⟨fun h l => congrArg (0x92 :: 0xAC :: ·) (wordOperand_append h l), fun ptr s => ⟨rfl, rfl,
    fun hroom h0 h1 h2 => (exec_jpfLongptr_next ..).2 ⟨⟨hroom, h0, h1, h2⟩, rfl⟩, fun hroom hread => ?_,
    exec_no_room (.jpfLongptr ptr)⟩⟩
  have hpointer : firstRefusal ([ptr.toNat, ptr.toNat + 1, ptr.toNat + 2].map (readCheck s)) =
      some .readNotAdmitted := firstRefusal_readChecks (by simpa using hread)
  rw [(meaning_jpfLongptr ptr).exec_eq, answer_room s _ _ _ hroom, answer_refused]
  exact hpointer

/-! ### SUB SP,#byte -/

theorem sub_setWidth_byte (sp : Word) (imm : Byte) :
    sp - imm.setWidth 16 = BitVec.ofNat 16 ((sp.toNat + 0x10000 - imm.toNat) % 0x10000) := by
  have := imm.isLt
  apply BitVec.eq_of_toNat_eq
  simp only [BitVec.toNat_sub, BitVec.toNat_setWidth, BitVec.toNat_ofNat]
  omega

/-- Settles O38: room, then under the cautious reading the comparison of the byte with SP. -/
theorem subtractSPCompletes : Obligations.SubtractSPCompletes := by
  refine fun imm s => ⟨rfl, rfl, rfl, fun hroom hsp => ?_, fun hroom hpolicy hlt => ?_, exec_no_room (.subSPByte imm)⟩
  · rw [(exec_subSP_next ..).2 ⟨⟨hroom, hsp⟩, rfl⟩, ← add_ofNat_pc, ← sub_setWidth_byte]
    rfl
  · rw [(meaning_subSPByte imm).exec_eq, answer_room s _ _ _ hroom, answer_refused]
    exact firstRefusal_cons_fail (by simpa [hpolicy] using hlt)

end Sys2Proof.Machine
end

section
/-! Frames: what the instructions of each rule leave as it was, and where PC ends (R14, 10_state sections 1 and 3). -/

namespace Sys2Proof.Machine

section
variable {i : Instr} {s t : State}

theorem exec_keeps_mem (hi : ∀ f, i ≠ clrInstr f) (h : exec i s = .next t) : t.mem = s.mem := by
  rcases exec_mem_cases h with hmem | ⟨f, hclr, -⟩
  · exact hmem
  · exact absurd hclr (hi f)

theorem exec_keeps_sp (hi : ∀ imm, i ≠ .subSPByte imm) (h : exec i s = .next t) : t.sp = s.sp := by
  rcases exec_next_cases h with ⟨_, _, _, _, rfl⟩ | ⟨_, _, _, _, rfl⟩ | ⟨_, _, rfl⟩ | ⟨_, _, _, _, rfl⟩ |
    ⟨_, _, _, rfl⟩ | ⟨_, _, _, rfl⟩ | ⟨_, _, _, _, rfl⟩ | ⟨imm, hsub, _, _⟩
  case inr.inr.inr.inr.inr.inr.inr => exact absurd hsub (hi imm)
  all_goals rfl

theorem toNat_pc_add {len : Nat} (h : s.hasRoom len) : (s.pc + BitVec.ofNat 24 len).toNat = s.pc.toNat + len := by
  unfold State.hasRoom at h
  rw [add_ofNat_pc, BitVec.toNat_ofNat]
  omega

end

/-- Settles O40: JPF apart, every rule advances PC by the length, for which there was room. -/
theorem pcAdvancesByLength : Obligations.PcAdvancesByLength := by
  intro i s t h hextmem hlongptr
  rcases exec_next_cases h with ⟨_, _, hroom, _, rfl⟩ | ⟨_, _, hroom, _, rfl⟩ | ⟨rfl, hroom, rfl⟩ |
    ⟨_, _, hroom, _, rfl⟩ | ⟨v, hi, _⟩ | ⟨v, hi, _⟩ | ⟨_, _, hroom, _, rfl⟩ | ⟨_, rfl, hroom, rfl⟩
  case inr.inr.inr.inr.inl => exact absurd hi (hextmem v)
  case inr.inr.inr.inr.inr.inl => exact absurd hi (hlongptr v)
  all_goals exact toNat_pc_add hroom

/-- Settles O41: X, Y, SP and memory are kept by every instruction but those that name them, V, H and C by all but ADD
and SUB A. -/
theorem frameOfAccumulatorInstructions : Obligations.FrameOfAccumulatorInstructions := by
  intro src i s t hi h
  have hclr (f : MemForm) : i ≠ clrInstr f := by
    rcases hi with rfl | rfl | rfl | rfl <;> exact ne_of_ruleNumber (by simp)
  have hsp (imm : Byte) : i ≠ .subSPByte imm := by
    rcases hi with rfl | rfl | rfl | rfl <;> exact ne_of_ruleNumber (by simp)
  obtain ⟨hx, hy, hcfg⟩ := exec_keeps_x_y_cfg h
  obtain ⟨hi1, hi0⟩ := interruptFlagsUntouched.1 i s t h
  refine ⟨hx, hy, exec_keeps_sp hsp h, hcfg, hi1, hi0, fun addr => by rw [exec_keeps_mem hclr h], fun hld => ?_, ?_⟩
  · refine exec_keeps_v_h_c (fun src' => ?_) h
    rcases hld with rfl | rfl <;> exact ⟨ne_of_ruleNumber (by simp), ne_of_ruleNumber (by simp)⟩
  · rintro rfl
    rw [(exec_sub_a_flags h).2, Flags.afterSub_h]

/-- Settles O43: neither A nor a flag is written, and no byte of memory. -/
theorem frameOfJumpsAndSubtractSP : Obligations.FrameOfJumpsAndSubtractSP := by
  intro i s t hi h
  have hclr (f : MemForm) : i ≠ clrInstr f := by
    rcases hi with ⟨v, rfl⟩ | ⟨v, rfl⟩ | ⟨v, rfl⟩ <;> exact ne_of_ruleNumber (by simp)
  obtain ⟨hx, hy, hcfg⟩ := exec_keeps_x_y_cfg h
  obtain ⟨ha, hflags⟩ := exec_jumpOrSubSP_a_flags hi h
  exact ⟨ha, hx, hy, hflags, hcfg, fun addr => by rw [exec_keeps_mem hclr h], fun hsp => exec_keeps_sp hsp h⟩

end Sys2Proof.Machine
end

section
/-! The state after reset, the opcode table as data, assembler spellings, and the memory map. -/

namespace Sys2Proof

/-! ### The opcode table -/

/-- No row of the table has a precode for its opcode byte (R42). -/
theorem not_isPrecode_opcode : ∀ r ∈ opcodeTable, isPrecode r.opcode = false := by
  intro r hr
  fin_cases hr <;> rfl

theorem findRow_of_isPrecode (p : Option Byte) {o : Byte} (h : isPrecode o = true) : findRow p o = none := by
  cases hrow : findRow p o with
  | none => rfl
  | some r =>
    obtain ⟨hmem, -, rfl⟩ := findRow_mem hrow
    rw [not_isPrecode_opcode r hmem] at h
    cases h

/-- The opcode bytes of the rows with this precode, or none. -/
def opcodesOf (p : Option Byte) : List Byte := (opcodeTable.filter (fun r => r.precode == p)).map Row.opcode

theorem findRow_isSome_iff {p : Option Byte} {o : Byte} : (findRow p o).isSome = true ↔ o ∈ opcodesOf p := by
  simp [findRow, opcodesOf, and_assoc]

/-- A precode, or none, selects as many rows as it has opcode bytes, where no two of these are the same. -/
theorem countP_findRow {p : Option Byte} (h : (opcodesOf p).Nodup) :
    (List.range 256).countP (fun b => (findRow p (BitVec.ofNat 8 b)).isSome) = (opcodesOf p).length := by
  rw [List.countP_eq_length_filter, ← List.length_map (f := BitVec.toNat) (as := opcodesOf p)]
  refine List.Perm.length_eq ((List.perm_ext_iff_of_nodup (List.nodup_range.filter _)
    (h.map fun _ _ => BitVec.eq_of_toNat_eq)).2 fun b => ?_)
  simp only [List.mem_filter, List.mem_range, findRow_isSome_iff, List.mem_map]
  constructor
  · rintro ⟨hb, hmem⟩
    exact ⟨_, hmem, BitVec.toNat_ofNat b 8 ▸ Nat.mod_eq_of_lt hb⟩
  · rintro ⟨o, hmem, rfl⟩
    rw [BitVec.ofNat_toNat, BitVec.setWidth_eq]
    exact ⟨o.isLt, hmem⟩

/-- Settles O6: the bytes counted are the opcode bytes of the rows, all different under one precode. -/
theorem tableCounts : Obligations.TableCounts :=
  ⟨rfl, countP_findRow (p := none) (by decide), countP_findRow (p := some 0x90) (by decide),
    countP_findRow (p := some 0x91) (by decide), countP_findRow (p := some 0x92) (by decide),
    countP_findRow (p := some 0x72) (by decide), findRow_of_isPrecode⟩

/-- Settles O5: each word is decoded. -/
theorem decodeSpecWords : Obligations.DecodeSpecWords :=
  ⟨rfl, rfl, rfl, rfl, rfl, rfl, rfl, rfl, rfl, rfl, rfl, rfl, rfl, rfl, rfl, rfl, rfl, rfl, rfl, rfl, rfl⟩

end Sys2Proof

namespace Sys2Proof.Machine

/-- Settles O7: the row of each instruction is found by its encoding. -/
theorem cyclesAsPrinted : Obligations.CyclesAsPrinted := by
  refine ⟨fun _ => ⟨rfl, rfl, rfl, rfl⟩, fun f => ?_, rfl, fun _ => rfl, fun _ => rfl⟩
  cases f <;> exact ⟨rfl, rfl, rfl, rfl⟩

/-- Settles O52: the spellings are evaluated. -/
theorem assemblerSpellings : Obligations.AssemblerSpellings := ⟨rfl, rfl, rfl, rfl, rfl, rfl, rfl, rfl⟩

/-! ### The memory map -/

section
variable (c : Config) (addr : Nat)

theorem kindAt_nil (h : addr ≤ topAddress) : kindAt { c with map := [] } addr = .absent := if_pos h

/-- The first region decides an address that it holds, and leaves every other to the rest of the map. -/
theorem kindAt_cons (g : Region) (rest : List Region) (h : addr ≤ topAddress) :
    kindAt { c with map := g :: rest } addr =
      if g.range.first ≤ addr ∧ addr ≤ g.range.last then g.kind else kindAt { c with map := rest } addr := by
  simp [kindAt, mapKind, AddrRange.contains, h]

theorem kindAt_beyond_top (h : topAddress < addr) : kindAt c addr = .absent := if_neg (Nat.not_le.2 h)

end

/-- Settles O53: `readable` and `writable` compare the kind; the map is searched from its front. -/
theorem mapKindsDecideAccess : Obligations.MapKindsDecideAccess := by
  refine ⟨fun c addr => ⟨fun h => ?_, fun h => ?_, fun h => ?_, kindAt_beyond_top c addr⟩,
    fun c g rest addr htop => ⟨kindAt_nil c addr htop, fun h => ?_, fun h => ?_⟩⟩
  · simp [readable, writable, h]
  · simp [readable, writable, h]
  · simp [readable, writable, h]
  · rw [kindAt_cons c addr g rest htop, if_pos h]
  · rw [kindAt_cons c addr g rest htop, if_neg h]

/-! ### Reset -/

theorem plainRam_resetConfig : plainRam resetConfig := by
  refine ⟨fun addr h => ?_, rfl, rfl⟩
  exact (kindAt_cons resetConfig addr _ [] h).trans (if_pos ⟨Nat.zero_le _, h⟩)

/-- Settles O1: the fields of `State.reset`, with no byte listed, no code and no stop address. -/
theorem resetValues : Obligations.ResetValues :=
  ⟨rfl, rfl, rfl, rfl, rfl, rfl, fun _ => rfl, plainRam_resetConfig, fun _ => rfl, Bool.false_ne_true⟩

/-- Settles O2: no byte is listed and no address is in `CODE`. -/
theorem resetMeetsInvariants : Obligations.ResetMeetsInvariants :=
  ⟨Memory.wf_nil, fun _ h => absurd h Bool.false_ne_true⟩

end Sys2Proof.Machine
end
